-- ==== Sys2Proof/Word.lean ====
section
/-! DEFINITION. The word types of the engine (00_scope.md R8): every value is unsigned, bit 0 is the least significant bit. -/

namespace Sys2Proof

/-- 8 bits (R8): a key or message byte, a digest byte, an operand field, a status code. -/
abbrev Byte := BitVec 8

/-- 32 bits: a command word, a response word (R65), or one half of a lane in the pair representation (R28). -/
abbrev Word := BitVec 32

/-- 64 bits (R7 `LANE_BITS`, R8): "one 64-bit word of the 16-word internal state or working vector". -/
abbrev Lane := BitVec 64

end Sys2Proof
end

