-- ==== Sys2Proof/Machine/Constants.lean ====
section
/-! DEFINITION. The fixed parameters of the engine (00_scope.md R7). -/

namespace Sys2Proof.Machine

/-- `BLOCK_BYTES` (R7): bytes in the block buffer. -/
def blockBytes : Nat := 128

/-- `OUT_MIN` (R7). -/
def outMin : Nat := 1

/-- `OUT_MAX` (R7). -/
def outMax : Nat := 64

/-- `KEY_MAX` (R7); a key length of 0 means no key. -/
def keyMax : Nat := 64

/-- `T_MAX` (R7): the largest supported total of absorbed bytes, key block included. -/
def tMax : Nat := 2 ^ 53 - 1

/-- `PARAM_BASE` (R7): the constant part of the parameter word. -/
def paramBase : Word := 0x01010000

end Sys2Proof.Machine
end

