-- ==== Sys2Proof/Machine/Arith.lean ====
section
/-! DEFINITION. The arithmetic primitives (40_arith_primitives.md R42 to R48): pure functions on lanes, no flags, no
exceptions. Their pair forms are in Machine/Pair.lean. -/

namespace Sys2Proof.Machine

/-- `ADD64` (R42): addition modulo 2^64, the carry out discarded. -/
def add64 (a b : Lane) : Lane := a + b

/-- `XOR64` (R43). -/
def xor64 (a b : Lane) : Lane := a ^^^ b

/-- `NOT64` (R43). -/
def not64 (a : Lane) : Lane := ~~~a

/-- `rotr64(x, n)` for a fixed `n` with `0 < n < 64` (R44): `((x >> n) | (x << (64 − n))) mod 2^64`. -/
def rotr64 (x : Lane) (n : Nat) : Lane := (x >>> n) ||| (x <<< (64 - n))

/-- `ROTR64_32` (R45). -/
def rotr64By32 (x : Lane) : Lane := rotr64 x 32

/-- `ROTR64_24` (R46). -/
def rotr64By24 (x : Lane) : Lane := rotr64 x 24

/-- `ROTR64_16` (R47). -/
def rotr64By16 (x : Lane) : Lane := rotr64 x 16

/-- `ROTR64_63` (R48). -/
def rotr64By63 (x : Lane) : Lane := rotr64 x 63

end Sys2Proof.Machine
end

