-- ==== Sys2Proof/Config.lean ====
section
/-! DEFINITION. The free values of the model: what the spec leaves without a value (93_implementation_defined.md U11, U12,
U15). Each is a constant with no body, so no proof can learn what it is; the step applies it to the draw counter of the
state (or of the port), so that each draw is a fresh value. Log entries 3, 4, 13. -/

namespace Sys2Proof

/-- The chaining state after the `n`-th draw at a reset event (R116, U11: unspecified, any value). -/
opaque Config.freeChain : Nat → Vector Lane 8

/-- Byte `a` of the block buffer after the `n`-th draw at a reset event (R116, U11: unspecified, any value). -/
opaque Config.freeBuffer : Nat → Nat → Byte

/-- The working vector after the `n`-th draw, at a reset event or at the end of a commit (R116, R22: it "has no value
outside a commit"; U11, U12). -/
opaque Config.freeWork : Nat → Vector Lane 16

/-- The message words after the `n`-th draw, at a reset event or at the end of a commit (R116, R23, U11, U12). -/
opaque Config.freeMessage : Nat → Vector Lane 16

/-- The round part of the sequencer index after the `n`-th draw, at a reset event or at the end of a commit
(R16: it "holds no value between commands"; U12). -/
opaque Config.freeRound : Nat → Fin 12

/-- The G-invocation part of the sequencer index after the `n`-th draw (R16, U12). -/
opaque Config.freeCall : Nat → Fin 8

/-- `LAT` (R7, R122, U15), less the one cycle every command takes: the cycles beyond the first that the `n`-th accepted
command word takes at the port. Any finite number; only Machine/Port.lean reads it. -/
opaque Config.extraCycles : Word → Nat → Nat

end Sys2Proof
end

