-- ==== Sys2Proof/Syntax.lean ====
section
/-! DEFINITION. The syntax: the six commands of the opcode map (30_encoding.md R67), the reasons a word is no command
(R68), and the assembler's lines (R72). -/

namespace Sys2Proof

/-- The six commands, one constructor per row of the opcode map (R67). The operands are the whole 8-bit fields
(R66): values outside the legal ranges are expressible on purpose, and it is the engine that refuses them. -/
inductive Instr where
  /-- `INIT nn, kk` (R80): create a context; `A = nn`, `B = kk`. -/
  | init (nn kk : Byte)
  /-- `KEYB x` (R81): one key byte. -/
  | keyb (x : Byte)
  /-- `ABSB x` (R82): one message byte. -/
  | absb (x : Byte)
  /-- `FINAL` (R83): pad and compress the last block. -/
  | final
  /-- `RDD idx` (R84): read one digest byte. -/
  | rdd (idx : Byte)
  /-- `STAT` (R85): read the phase and the fill count. -/
  | stat
  deriving DecidableEq, Repr

/-- Why a word is no command (R68). The engine answers `E_ILLEGAL` to each alike; the names only say which of R68's
conditions was met first. -/
inductive IllegalWord where
  /-- `op` is 0x00 or in 0x07..0xFF. -/
  | opcode
  /-- bits 23:16 are not zero. -/
  | reservedBits
  /-- `B ≠ 0` for an opcode other than `INIT`. -/
  | operandB
  /-- `A ≠ 0` for `FINAL` or `STAT`. -/
  | operandA
  deriving DecidableEq, Repr

/-- What the decoder answers (R69: a total function on all words). -/
inductive Decoded where
  | ok (i : Instr)
  | illegal (why : IllegalWord)
  deriving DecidableEq, Repr

/-- The six rows of the opcode map by name (R67). -/
inductive Mnemonic where
  | init | keyb | absb | final | rdd | stat
  deriving DecidableEq, Repr

/-- One line of assembler input (R72): a mnemonic with its operands as plain numbers, which may be too large for their
fields. -/
inductive AsmLine where
  | init (nn kk : Nat)
  | keyb (x : Nat)
  | absb (x : Nat)
  | final
  | rdd (idx : Nat)
  | stat
  deriving DecidableEq, Repr

end Sys2Proof
end

