-- ==== Sys2Proof/WellFormed.lean ====
section
/-! DEFINITION. Well-formedness. A command's operands fill their 8-bit fields exactly (R66), so every term of `Instr` is
well formed: "an assembler must not refuse nn or kk outside their legal ranges" (R72). An assembler line has plain
numbers, and the one check there is says that each fits its field (R72: "must refuse an operand outside 0..255"). -/

namespace Sys2Proof

/-- R72: an operand of an assembler line fits an 8-bit field. -/
def operandFits (n : Nat) : Bool := decide (n ≤ 255)

/-- R72: every operand of the line fits its field. -/
def AsmLine.wellFormed : AsmLine → Bool
  | .init nn kk => operandFits nn && operandFits kk
  | .keyb x => operandFits x
  | .absb x => operandFits x
  | .final => true
  | .rdd idx => operandFits idx
  | .stat => true

/-- The line that writes a command: its operands as numbers (R66: unsigned, not scaled). -/
def Instr.toLine : Instr → AsmLine
  | .init nn kk => .init nn.toNat kk.toNat
  | .keyb x => .keyb x.toNat
  | .absb x => .absb x.toNat
  | .final => .final
  | .rdd idx => .rdd idx.toNat
  | .stat => .stat

/-- A command is well formed when the line that writes it is (R66, R72). It holds of every command, because the fields
of `Instr` are 8 bits wide; the ill-formed terms are lines. -/
def Instr.wellFormed (i : Instr) : Bool := i.toLine.wellFormed

end Sys2Proof
end

