-- ==== Sys2Proof/Decode.lean ====
section
/-! DEFINITION. Decoder, encoder and assembler of the command words (30_encoding.md R65 to R69, R72). -/

namespace Sys2Proof

/-- Field `op` of format `CMD`, bits 31:24 (R65). -/
def fieldOp (w : Word) : Byte := w.extractLsb' 24 8

/-- Field `rsv` of format `CMD`, bits 23:16 (R65). -/
def fieldRsv (w : Word) : Byte := w.extractLsb' 16 8

/-- Field `B` of format `CMD`, bits 15:8, taken without any transformation (R65, R66). -/
def fieldB (w : Word) : Byte := w.extractLsb' 8 8

/-- Field `A` of format `CMD`, bits 7:0, taken without any transformation (R65, R66). -/
def fieldA (w : Word) : Byte := w.extractLsb' 0 8

/-- One row of the opcode map (R67). -/
structure OpRow where
  name : Mnemonic
  op : Byte
  pattern : Word
  mask : Word
  deriving DecidableEq, Repr

/-- The opcode map (R67), in the spec's order. -/
def opcodeMap : List OpRow :=
  [⟨.init, 0x01, 0x01000000, 0xFFFF0000⟩,
   ⟨.keyb, 0x02, 0x02000000, 0xFFFFFF00⟩,
   ⟨.absb, 0x03, 0x03000000, 0xFFFFFF00⟩,
   ⟨.final, 0x04, 0x04000000, 0xFFFFFFFF⟩,
   ⟨.rdd, 0x05, 0x05000000, 0xFFFFFF00⟩,
   ⟨.stat, 0x06, 0x06000000, 0xFFFFFFFF⟩]

/-- R67: a word selects a row iff `(w & mask) = match`. -/
def OpRow.selects (r : OpRow) (w : Word) : Bool := w &&& r.mask == r.pattern

/-- The command a row stands for, with the operands `A` and `B` (R66). -/
def buildInstr (k : Mnemonic) (A B : Byte) : Instr :=
  match k with
  | .init => .init A B
  | .keyb => .keyb A
  | .absb => .absb A
  | .final => .final
  | .rdd => .rdd A
  | .stat => .stat

/-- Which of R68's conditions a word with an assigned opcode meets, looked at in the order of R68. -/
def whyIllegal (w : Word) : IllegalWord :=
  if fieldRsv w ≠ 0 then .reservedBits
  else if fieldB w ≠ 0 then .operandB
  else .operandA

/-- R69: compute `op`, look the row up, test the mask. Total on all words; reads no state. -/
def decode (w : Word) : Decoded :=
  match opcodeMap.find? (fun r => r.op == fieldOp w) with
  | none => .illegal .opcode
  | some r =>
    if r.selects w then .ok (buildInstr r.name (fieldA w) (fieldB w)) else .illegal (whyIllegal w)

/-- Format `CMD` (R65): `op` at 31:24, zero at 23:16, `B` at 15:8, `A` at 7:0. -/
def cmdWord (op B A : Byte) : Word := op ++ (0#8) ++ B ++ A

/-- The word of a command, from the opcode map (R65, R67); fields that carry no operand are zero (R66). -/
def encode : Instr → Word
  | .init nn kk => cmdWord 0x01 kk nn
  | .keyb x => cmdWord 0x02 0 x
  | .absb x => cmdWord 0x03 0 x
  | .final => cmdWord 0x04 0 0
  | .rdd idx => cmdWord 0x05 0 idx
  | .stat => cmdWord 0x06 0 0

/-- The row of the opcode map a command belongs to. -/
def Instr.mnemonic : Instr → Mnemonic
  | .init _ _ => .init
  | .keyb _ => .keyb
  | .absb _ => .absb
  | .final => .final
  | .rdd _ => .rdd
  | .stat => .stat

/-- The command a line means, its operands cut to their fields; `assemble` uses it for well-formed lines only. -/
def AsmLine.toInstr : AsmLine → Instr
  | .init nn kk => .init (BitVec.ofNat 8 nn) (BitVec.ofNat 8 kk)
  | .keyb x => .keyb (BitVec.ofNat 8 x)
  | .absb x => .absb (BitVec.ofNat 8 x)
  | .final => .final
  | .rdd idx => .rdd (BitVec.ofNat 8 idx)
  | .stat => .stat

/-- The assembler (R72): it refuses an operand outside 0..255 and nothing else. -/
def assemble (l : AsmLine) : Option Word :=
  if l.wellFormed then some (encode l.toInstr) else none

/-- The word of the opcode table's numbering: the low `nbits` bits of `w`, the bits above them zero. A command is one
32-bit word (R65), handed over whole at the command port, so there is no byte order to apply (R32). -/
def tableWord (nbits w : Nat) : Word := BitVec.ofNat 32 (w % 2 ^ nbits)

/-- What the decoder reads from an instruction whose bits are `w`, numbered as the opcode table numbers them. -/
def decodeTableWord (nbits w : Nat) : Option Instr :=
  match decode (tableWord nbits w) with
  | .ok i => some i
  | .illegal _ => none

end Sys2Proof
end

