-- ==== Sys2Proof/Machine/State.lean ====
section
/-! DEFINITION. The state of one engine (10_state.md R13 to R27), as plain data, and the state after reset. -/

namespace Sys2Proof.Machine

/-- `PHASE` (R19): where the context is in its life. The numeric codes are `phaseCode` in Machine/Flags.lean. -/
inductive Phase where
  /-- No context exists (after reset only). -/
  | idle
  /-- A keyed context exists and fewer than `kk` key bytes have arrived. -/
  | keyload
  /-- Message bytes are accepted. -/
  | absorb
  /-- The context is finalised and the digest is readable. -/
  | done
  deriving DecidableEq, Repr

/-- What the host does at the command port (R120, R124): the events a run is made of (R128). -/
inductive HostEvent where
  /-- A command word is presented and accepted (R70). -/
  | command (w : Word)
  /-- The reset event, between commands (R116). -/
  | reset
  /-- A command word is accepted and reset arrives before it completes (R117): the command is abandoned. -/
  | cutShort (w : Word)
  deriving DecidableEq, Repr

/-- The status of a response (R71): success, or the cause of a refused command. -/
inductive Status where
  | ok | eParam | eState | eIllegal | eLength
  deriving DecidableEq, Repr

/-- Why a step stops with a fault. Neither can happen in a state a run reaches (R26 bounds `c`, `kk` and `nn`): a state
outside R26 could name a byte that does not exist, and the model stops there. Log entry 10. -/
inductive Fault where
  /-- `KEYB` or `ABSB` would write the block buffer at an address above 127 (R34: "a write with addr = 128 never
  occurs"). Safe: the buffer has no such byte. -/
  | bufferAddress
  /-- `RDD` would read the digest window at an index above 63 (R35: `DigRead(j)` is for `j` in 0..63). Safe: `h` has no
  such byte. -/
  | digestIndex
  deriving DecidableEq, Repr

/-- Why the model gives an instruction no meaning. The engine's own refusals (R100) are no such thing: they are next
states with a status in the response. -/
inductive Refusal where
  /-- Raised only by an arm of `exec` whose instruction has no meaning yet; there is none. Safe. -/
  | notModelled (mnemonic : String)
  deriving DecidableEq, Repr

/-- The state of one engine. `h` to `phase` are the architectural state (R13: "the following and nothing else"); `v`,
`m`, `seqR`, `seqG` the hidden scratch (R22 to R24, R16); `draws`, `inputs` and `responses` are the model's own. -/
structure State where
  /-- `h[0..7]`, the chaining state (R14). -/
  h : Vector Lane 8
  /-- `b[0..127]`, the block buffer (R25), as a memory in canonical form (`Memory.wf` in Machine/Ops.lean). -/
  b : List Host.Cell
  /-- `C`, the fill count, 8 bits (R20). -/
  c : Byte
  /-- `T`, the byte counter, 64 bits (R21). -/
  t : Lane
  /-- `PARAM[7:0]`, the output length (R18). -/
  nn : Byte
  /-- `PARAM[15:8]`, the key length (R18). -/
  kk : Byte
  /-- `PHASE` (R19). -/
  phase : Phase
  /-- `v[0..15]`, the working vector, scratch (R22). -/
  v : Vector Lane 16
  /-- `m[0..15]`, the message words, scratch (R23). -/
  m : Vector Lane 16
  /-- The round of the sequencer index `(r, g)`, scratch (R16, R61). -/
  seqR : Fin 12
  /-- The G invocation of the sequencer index `(r, g)`, scratch (R16, R61). -/
  seqG : Fin 8
  /-- The model's own: how many free values have been drawn (log entry 3). -/
  draws : Nat
  /-- The model's own: what the host does next, the first event first (R12, R38: "the model takes commands as an input
  sequence"; log entry 7). -/
  inputs : List HostEvent
  /-- The model's own: the responses produced so far, the first one first (R70, R128; log entry 8). -/
  responses : List Word
  deriving DecidableEq, Repr

/-- The engine after the reset event (R27, R116): `phase = IDLE`, `c = t = nn = kk = 0`. `h`, `b` and the scratch have no
reset value in the spec; the zeros here are the model's (log entries 1, 2, 3). The host has presented nothing yet. -/
def State.reset : State where
  h := Vector.replicate 8 0
  b := []
  c := 0
  t := 0
  nn := 0
  kk := 0
  phase := .idle
  v := Vector.replicate 16 0
  m := Vector.replicate 16 0
  seqR := 0
  seqG := 0
  draws := 0
  inputs := []
  responses := []

end Sys2Proof.Machine
end

