-- ==== Sys2Proof/Machine/Flags.lean ====
section
/-! DEFINITION. There are no condition codes and no sticky flags (10_state.md R17). What stands in their place: the
status codes (30_encoding.md R71), the phase codes (10_state.md R19), and the response word (30_encoding.md R65). The
final-block flag `f` (R17) is an argument of `F`, a Bool. -/

namespace Sys2Proof.Machine

/-- The status codes (R71); 0x05..0xFF are never produced. -/
def statusCode : Status → Byte
  | .ok => 0x00
  | .eParam => 0x01
  | .eState => 0x02
  | .eIllegal => 0x03
  | .eLength => 0x04

/-- The phase codes, 2 bits (R19). -/
def phaseCode : Phase → BitVec 2
  | .idle => 0
  | .keyload => 1
  | .absorb => 2
  | .done => 3

/-- Format `RSP` (R65): status at 31:24, zero at 23:16, data at 15:0. -/
def rspWord (st : Status) (data : BitVec 16) : Word := statusCode st ++ (0#8) ++ data

/-- The data of a `STAT` response (R85): the phase code at 9:8, the fill count at 7:0, zero above. -/
def statData (p : Phase) (c : Byte) : BitVec 16 := (0#6) ++ phaseCode p ++ c

/-- The data of an `RDD` response (R84): the byte, zero-extended to 16 bits. -/
def byteData (x : Byte) : BitVec 16 := x.setWidth 16

/-- The value of `f` in the commit inside `ABSB` (R17). -/
def notFinal : Bool := false

/-- The value of `f` in the commit inside `FINAL` (R17). -/
def isFinal : Bool := true

end Sys2Proof.Machine
end

