-- ==== Sys2Proof/Machine/Operands.lean ====
section
/-! DEFINITION. What the commands do with their operands (30_encoding.md R66): the range checks, the parameter word, the
implicit addresses (42_stream_commands.md R91). -/

namespace Sys2Proof.Machine

/-- `INIT`: the output length is in 1..64 (R66, R80). -/
def outLenLegal (nn : Byte) : Bool := decide (outMin ≤ nn.toNat ∧ nn.toNat ≤ outMax)

/-- `INIT`: the key length is in 0..64 (R66, R80). -/
def keyLenLegal (kk : Byte) : Bool := decide (kk.toNat ≤ keyMax)

/-- `RDD`: the index is below the output length, an unsigned comparison (R66, R84, R51). -/
def indexLegal (idx nn : Byte) : Bool := decide (idx.toNat < nn.toNat)

/-- The parameter word `0x01010000 ^ (kk << 8) ^ nn` (R87). -/
def paramWord (nn kk : Byte) : Word := paramBase ^^^ (kk.setWidth 32 <<< 8) ^^^ nn.setWidth 32

/-- `PARAM` as one register: `nn` at 7:0, `kk` at 15:8 (R18). -/
def paramRegister (s : State) : BitVec 16 := s.kk ++ s.nn

/-- The fill-pointer store of `KEYB` and `ABSB`: its address is `c` (R34, R91). -/
def fillPointer (s : State) : Nat := s.c.toNat

/-- The feeder load of message word `i`: its address is `8·i` (R55, R91). -/
def feederAddress (i : Nat) : Nat := 8 * i

/-- The digest load: byte `j` of the window is in lane `j div 8` (R35, R91). -/
def digestLane (j : Fin 64) : Fin 8 := ⟨j.val / 8, by omega⟩

/-- The digest load: byte `j` of the window starts at bit `8·(j mod 8)` of its lane (R35, R91). -/
def digestShift (j : Fin 64) : Nat := 8 * (j.val % 8)

end Sys2Proof.Machine
end

