-- ==== Sys2Proof/Machine/Ops.lean ====
section
/-! DEFINITION. The operations over memory, registers and ports that the meanings share: the block buffer (20_memory.md
R33, R34), the digest window (R35), the response (30_encoding.md R70), refusing a command (60_exceptions.md R100, R109),
the reset event (70_reset_and_hazards.md R116, R117), taking the host's next event. -/

namespace Sys2Proof.Machine

/-- What a byte of the buffer that is not listed reads as: zero, as `INIT` writes it everywhere (R80); at reset, where
the spec gives no contents, it is the model's choice (log entry 2). -/
def Memory.unlisted : Byte := 0

/-- One byte of a memory. -/
def Memory.read : List Host.Cell → Nat → Byte
  | [], _ => Memory.unlisted
  | (k, x) :: rest, a => if k = a then x else Memory.read rest a

/-- Put a byte into a memory, keeping the canonical form: addresses strictly rising, no entry that an unlisted address
would read as. -/
def Memory.write : List Host.Cell → Nat → Byte → List Host.Cell
  | [], a, x => if x = Memory.unlisted then [] else [(a, x)]
  | (k, y) :: rest, a, x =>
    if k < a then (k, y) :: Memory.write rest a x
    else if k = a then (if x = Memory.unlisted then rest else (a, x) :: rest)
    else if x = Memory.unlisted then (k, y) :: rest else (a, x) :: (k, y) :: rest

/-- The canonical form of a memory whose addresses are at least `lo`: addresses strictly rising, inside the buffer (R25:
0..127), no entry equal to what an unlisted address reads as. -/
def Memory.wfFrom : Nat → List Host.Cell → Bool
  | _, [] => true
  | lo, (k, x) :: rest =>
    decide (lo ≤ k) && decide (k < blockBytes) && decide (x ≠ Memory.unlisted) && Memory.wfFrom (k + 1) rest

/-- The canonical form of the block buffer. -/
def Memory.wf (b : List Host.Cell) : Bool := Memory.wfFrom 0 b

/-- `for a in lo..127: MemWrite(a, 1, 0)`: the clear store of `INIT` and the pad store of `FINAL` (R34, R91). Zero is what
an unlisted address reads as, so writing it from `lo` on removes every entry there (`Memory.zeroFrom_eq_writes` in Laws/
says that the loop of single writes gives the same buffer). -/
def Memory.zeroFrom (b : List Host.Cell) (lo : Nat) : List Host.Cell := b.filter fun e => decide (e.1 < lo)

/-- The buffer that holds byte `f a` at each of the `n` addresses from `a` on, and nothing else. -/
def Memory.bytesFrom (f : Nat → Byte) : Nat → Nat → List Host.Cell
  | _, 0 => []
  | a, n + 1 => if f a = Memory.unlisted then Memory.bytesFrom f (a + 1) n else (a, f a) :: Memory.bytesFrom f (a + 1) n

/-- The buffer that holds byte `f a` at each address `a` in 0..127. -/
def Memory.ofBytes (f : Nat → Byte) : List Host.Cell := Memory.bytesFrom f 0 blockBytes

/-- `MemRead(addr, 8)` (R33): eight bytes, the byte at the lowest address least significant (`LE64`, R11, R32). -/
def memRead8 (b : List Host.Cell) (addr : Nat) : Lane :=
  Memory.read b (addr + 7) ++ Memory.read b (addr + 6) ++ Memory.read b (addr + 5) ++ Memory.read b (addr + 4) ++
    Memory.read b (addr + 3) ++ Memory.read b (addr + 2) ++ Memory.read b (addr + 1) ++ Memory.read b addr

/-- `MemWrite(addr, 1, e)` (R34): one byte of the buffer, addresses 0..127; there is no byte above them. -/
def memWrite (s : State) (addr : Nat) (e : Byte) : Host.Outcome State Fault Refusal :=
  if addr < blockBytes then .next { s with b := Memory.write s.b addr e } else .fault .bufferAddress

/-- `DigRead(j)` (R35): the byte at bits `8·(j mod 8) + 7 : 8·(j mod 8)` of `h[j div 8]`. -/
def digRead (h : Vector Lane 8) (j : Fin 64) : Byte := (h[digestLane j] >>> digestShift j).setWidth 8

/-- Run the rest of a command after a part of it that may stop. -/
def andThen (o : Host.Outcome State Fault Refusal) (k : State → Host.Outcome State Fault Refusal) :
    Host.Outcome State Fault Refusal :=
  match o with
  | .next s => k s
  | .fault r => .fault r
  | .refused r => .refused r

/-- Put a word on the response port (R70): the last one so far. -/
def State.emit (s : State) (w : Word) : State := { s with responses := s.responses ++ [w] }

/-- `respond(data)` (R10): the command ends with status `OK`. -/
def respond (s : State) (data : BitVec 16) : Host.Outcome State Fault Refusal := .next (s.emit (rspWord .ok data))

/-- `raise E(code)` (R10, R100, R109), taking the engine's exception: the command ends at once, the response is the status
with data 0, no state changes, and the engine is ready for the next command. There is nothing to return from (R110). -/
def raise (s : State) (code : Status) : Host.Outcome State Fault Refusal := .next (s.emit (rspWord code 0))

/-- The scratch has no value from here on (R16, R22, R23, R24): `v`, `m` and `(r, g)` become free values (U11, U12; log
entries 4, 5). -/
def freeScratch (s : State) : State :=
  { s with
    v := Config.freeWork s.draws
    m := Config.freeMessage s.draws
    seqR := Config.freeRound s.draws
    seqG := Config.freeCall s.draws
    draws := s.draws + 1 }

/-- The reset event (R116, R27): `phase = IDLE`, `c = t = nn = kk = 0`; `h`, `b` and the scratch become unspecified, each
a free value (log entry 4). No response is produced. -/
def resetEvent (s : State) : State :=
  freeScratch
    { s with
      h := Config.freeChain s.draws
      b := Memory.ofBytes (Config.freeBuffer s.draws)
      c := 0
      t := 0
      nn := 0
      kk := 0
      phase := .idle }

/-- A command that reset cuts short (R117): it is abandoned whatever it had already written, the state is the reset state,
no response is produced for it. -/
def abandonCommand (s : State) (_w : Word) : State := resetEvent s

/-- A word that is no command (R68, R103): `E_ILLEGAL`, before anything else is looked at. -/
def illegalCommand (s : State) : Host.Outcome State Fault Refusal := raise s .eIllegal

/-- The host's next event, and the state with that event taken from the stream. -/
def nextEvent (s : State) : Option (HostEvent × State) :=
  match s.inputs with
  | [] => none
  | e :: rest => some (e, { s with inputs := rest })

/-- The host puts one more event at the front of its stream. -/
def State.presentFirst (s : State) (e : HostEvent) : State := { s with inputs := e :: s.inputs }

end Sys2Proof.Machine
end

