-- ==== Sys2Proof/Machine/Compression.lean ====
section
/-! DEFINITION. The compression function `F`, its parts and its constants (41_compression.md R52 to R63): pure functions of
the chaining state, the block, the offset and the final flag, in the sequential order of R61. -/

namespace Sys2Proof.Machine

/-- `IV[0..7]` (R52). -/
def IV : Vector Lane 8 :=
  #v[0x6a09e667f3bcc908, 0xbb67ae8584caa73b, 0x3c6ef372fe94f82b, 0xa54ff53a5f1d36f1,
     0x510e527fade682d1, 0x9b05688c2b3e6c1f, 0x1f83d9abfb41bd6b, 0x5be0cd19137e2179]

/-- `SIGMA[0..11][0..15]` (R53). -/
def SIGMA : Vector (Vector (Fin 16) 16) 12 :=
  #v[#v[0, 1, 2, 3, 4, 5, 6, 7, 8, 9, 10, 11, 12, 13, 14, 15],
     #v[14, 10, 4, 8, 9, 15, 13, 6, 1, 12, 0, 2, 11, 7, 5, 3],
     #v[11, 8, 12, 0, 5, 2, 15, 13, 10, 14, 3, 6, 7, 1, 9, 4],
     #v[7, 9, 3, 1, 13, 12, 11, 14, 2, 6, 5, 10, 4, 0, 15, 8],
     #v[9, 0, 5, 7, 2, 4, 10, 15, 14, 1, 11, 12, 6, 8, 3, 13],
     #v[2, 12, 6, 10, 0, 11, 8, 3, 4, 13, 7, 5, 15, 14, 1, 9],
     #v[12, 5, 1, 15, 14, 13, 4, 10, 0, 7, 6, 3, 9, 2, 8, 11],
     #v[13, 11, 7, 14, 12, 1, 3, 9, 5, 0, 15, 4, 8, 6, 2, 10],
     #v[6, 15, 14, 9, 11, 3, 0, 8, 12, 2, 13, 7, 1, 4, 10, 5],
     #v[10, 2, 8, 4, 7, 6, 1, 5, 15, 11, 9, 14, 3, 12, 13, 0],
     #v[0, 1, 2, 3, 4, 5, 6, 7, 8, 9, 10, 11, 12, 13, 14, 15],
     #v[14, 10, 4, 8, 9, 15, 13, 6, 1, 12, 0, 2, 11, 7, 5, 3]]

/-- A lane quadruple `(ia, ib, ic, id)` (R54). -/
structure Quad where
  ia : Fin 16
  ib : Fin 16
  ic : Fin 16
  id : Fin 16
  deriving DecidableEq, Repr

/-- `QUAD[0..7]` (R54): four columns, then four diagonals. -/
def QUAD : Vector Quad 8 :=
  #v[⟨0, 4, 8, 12⟩, ⟨1, 5, 9, 13⟩, ⟨2, 6, 10, 14⟩, ⟨3, 7, 11, 15⟩,
     ⟨0, 5, 10, 15⟩, ⟨1, 6, 11, 12⟩, ⟨2, 7, 8, 13⟩, ⟨3, 4, 9, 14⟩]

/-- `SIGMA[r][k]`. -/
def sigma (r : Fin 12) (k : Fin 16) : Fin 16 := SIGMA[r][k]

/-- The first message word invocation `g` of round `r` takes, `m[SIGMA[r][2g]]` (R54). -/
def firstWord (m : Vector Lane 16) (r : Fin 12) (g : Fin 8) : Lane := m[sigma r ⟨2 * g.val, by omega⟩]

/-- The second message word invocation `g` of round `r` takes, `m[SIGMA[r][2g + 1]]` (R54). -/
def secondWord (m : Vector Lane 16) (r : Fin 12) (g : Fin 8) : Lane := m[sigma r ⟨2 * g.val + 1, by omega⟩]

/-- `LOADM` (R55): the block as sixteen little-endian 64-bit message words. -/
def loadM (b : List Host.Cell) : Vector Lane 16 := Vector.ofFn fun i => memRead8 b (feederAddress i.val)

/-- The working vector before the offset and the flag (R56): lanes 0..7 from the state, lanes 8..15 from `IV`. -/
def vCopy (h : Vector Lane 8) : Vector Lane 16 :=
  Vector.ofFn fun i => if hi : i.val < 8 then h[i.val] else IV[i.val - 8]

/-- `VINIT(h, t, f)` (R56): `h` and `IV`; lane 12 XORed with the 64-bit offset; lane 14 complemented on the final block;
lanes 13 and 15 left as they are. -/
def vInit (h : Vector Lane 8) (t : Lane) (f : Bool) : Vector Lane 16 :=
  let v := vCopy h
  let v := v.set 12 (xor64 v[12] t)
  if f then v.set 14 (not64 v[14]) else v

/-- `G(ia, ib, ic, id, x, y)` (R57): eight steps in this order, each using the values the steps before it wrote. -/
def G (q : Quad) (x y : Lane) (v : Vector Lane 16) : Vector Lane 16 :=
  let v := v.set q.ia (add64 (add64 v[q.ia] v[q.ib]) x)
  let v := v.set q.id (rotr64By32 (xor64 v[q.id] v[q.ia]))
  let v := v.set q.ic (add64 v[q.ic] v[q.id])
  let v := v.set q.ib (rotr64By24 (xor64 v[q.ib] v[q.ic]))
  let v := v.set q.ia (add64 (add64 v[q.ia] v[q.ib]) y)
  let v := v.set q.id (rotr64By16 (xor64 v[q.id] v[q.ia]))
  let v := v.set q.ic (add64 v[q.ic] v[q.id])
  v.set q.ib (rotr64By63 (xor64 v[q.ib] v[q.ic]))

/-- Invocation `g` of round `r` (R54, R58). -/
def invoke (m : Vector Lane 16) (r : Fin 12) (v : Vector Lane 16) (g : Fin 8) : Vector Lane 16 :=
  G QUAD[g] (firstWord m r g) (secondWord m r g) v

/-- `ROUND(r)` (R58): the eight invocations, `g` from 0 to 7 in increasing order (R61). -/
def ROUND (m : Vector Lane 16) (v : Vector Lane 16) (r : Fin 12) : Vector Lane 16 :=
  (List.finRange 8).foldl (invoke m r) v

/-- The twelve rounds in increasing order (R59, R61). -/
def allRounds (m : Vector Lane 16) (v : Vector Lane 16) : Vector Lane 16 := (List.finRange 12).foldl (ROUND m) v

/-- The feed-forward (R60): `h[i] ^ v[i] ^ v[i + 8]`. -/
def feedForward (h : Vector Lane 8) (v : Vector Lane 16) : Vector Lane 8 :=
  Vector.ofFn fun i => xor64 (xor64 h[i] v[i.val]) v[i.val + 8]

/-- The working vector after round 11, for the message words `m`. -/
def workVector (h : Vector Lane 8) (m : Vector Lane 16) (t : Lane) (f : Bool) : Vector Lane 16 :=
  allRounds m (vInit h t f)

/-- `F` on message words already decoded (R59 after `LOADM`). -/
def compress (h : Vector Lane 8) (m : Vector Lane 16) (t : Lane) (f : Bool) : Vector Lane 8 :=
  feedForward h (workVector h m t f)

/-- `F(h, b, t, f)` (R59). -/
def F (h : Vector Lane 8) (b : List Host.Cell) (t : Lane) (f : Bool) : Vector Lane 8 := compress h (loadM b) t f

end Sys2Proof.Machine
end

