-- ==== Sys2Proof/Machine/Stream.lean ====
section
/-! DEFINITION. The streaming buffer manager: the commit and the meanings of the six commands (42_stream_commands.md R80
to R93). Decode has passed when a meaning starts; the checks stand in the order of 60_exceptions.md R108. -/

namespace Sys2Proof.Machine

/-- `COMMIT(n, f)` (R86): `t <- t + n`, then `h <- F(h, b, t, f)` with the updated `t`. The scratch it worked in has no
value once it has ended (R24; log entry 5). -/
def commit (s : State) (n : Byte) (f : Bool) : State :=
  let t := s.t + n.setWidth 64
  freeScratch { s with t := t, h := F s.h s.b t f }

/-- R21, R104: taking `n` more bytes into `t` keeps it at or below `T_MAX`; a sum of natural numbers (R51). -/
def withinLimit (s : State) (n : Nat) : Bool := decide (s.t.toNat + n ≤ tMax)

/-- The chaining state a new context starts with (R80, R87): `IV`, lane 0 XORed with the zero-extended parameter word. -/
def initialChain (nn kk : Byte) : Vector Lane 8 := IV.set 0 (xor64 IV[0] ((paramWord nn kk).setWidth 64))

/-- `MemWrite(c, 1, x) ; c <- c + 1`: the fill-pointer store of `KEYB` and `ABSB` (R34, R91). -/
def storeByte (s : State) (x : Byte) : Host.Outcome State Fault Refusal :=
  andThen (memWrite s (fillPointer s) x) fun s => .next { s with c := s.c + 1 }

/-- `INIT nn, kk` (R80). Legal in every phase. -/
def execInit (nn kk : Byte) (s : State) : Host.Outcome State Fault Refusal :=
  if outLenLegal nn && keyLenLegal kk then
    respond
      { s with
        h := initialChain nn kk
        b := Memory.zeroFrom s.b 0
        c := 0
        t := 0
        nn := nn
        kk := kk
        phase := if 0 < kk.toNat then .keyload else .absorb } 0
  else raise s .eParam

/-- `KEYB x` (R81). Legal in `KEYLOAD`; the last key byte fills the block (R88). -/
def execKeyb (x : Byte) (s : State) : Host.Outcome State Fault Refusal :=
  if s.phase = .keyload then
    andThen (storeByte s x) fun s =>
      if s.c = s.kk then respond { s with c := 128, phase := .absorb } 0 else respond s 0
  else raise s .eState

/-- `ABSB x` (R82). Legal in `ABSORB`; a full buffer is committed before the byte is stored. -/
def execAbsb (x : Byte) (s : State) : Host.Outcome State Fault Refusal :=
  if s.phase = .absorb then
    if s.c = 128 then
      if withinLimit s 128 then
        andThen (storeByte { commit s 128 notFinal with c := 0 } x) fun s => respond s 0
      else raise s .eLength
    else andThen (storeByte s x) fun s => respond s 0
  else raise s .eState

/-- `FINAL` (R83). Legal in `ABSORB`; pads with zeros, compresses once with the final flag. -/
def execFinal (s : State) : Host.Outcome State Fault Refusal :=
  if s.phase = .absorb then
    if withinLimit s s.c.toNat then
      respond { commit { s with b := Memory.zeroFrom s.b s.c.toNat } s.c isFinal with c := 128, phase := .done } 0
    else raise s .eLength
  else raise s .eState

/-- `RDD idx` (R84). Legal in `DONE`; changes no state. -/
def execRdd (idx : Byte) (s : State) : Host.Outcome State Fault Refusal :=
  if s.phase = .done then
    if indexLegal idx s.nn then
      if hj : idx.toNat < 64 then respond s (byteData (digRead s.h ⟨idx.toNat, hj⟩)) else .fault .digestIndex
    else raise s .eParam
  else raise s .eState

/-- `STAT` (R85). Legal in every phase; changes no state. -/
def execStat (s : State) : Host.Outcome State Fault Refusal := respond s (statData s.phase s.c)

end Sys2Proof.Machine
end

