-- ==== Sys2Proof/Machine/Dispatch.lean ====
section
/-! DEFINITION. From a command to its meaning (30_encoding.md R67: the semantic rule of each row). -/

namespace Sys2Proof.Machine

def exec (i : Instr) (s : State) : Host.Outcome State Fault Refusal :=
  match i with
  | .init nn kk => Sys2Proof.Machine.execInit nn kk s
  | .keyb x => Sys2Proof.Machine.execKeyb x s
  | .absb x => Sys2Proof.Machine.execAbsb x s
  | .final => Sys2Proof.Machine.execFinal s
  | .rdd idx => Sys2Proof.Machine.execRdd idx s
  | .stat => Sys2Proof.Machine.execStat s

end Sys2Proof.Machine
end

