-- ==== Sys2Proof/Machine/Command.lean ====
section
/-! DEFINITION. Running one command word: decode, then the meaning (30_encoding.md R69, 60_exceptions.md R108). -/

namespace Sys2Proof.Machine

/-- A command word, taken from the host's stream: decode first, which reads no state, then the command's meaning (R69,
R108); a word that is no command is refused (R68). -/
def runCommand (w : Word) (s : State) : Host.Outcome State Fault Refusal :=
  match decode w with
  | .ok i => exec i s
  | .illegal _ => illegalCommand s

/-- What one event of the host does to the engine (R122, R116, R117). -/
def runEvent (e : HostEvent) (s : State) : Host.Outcome State Fault Refusal :=
  match e with
  | .command w => runCommand w s
  | .reset => .next (resetEvent s)
  | .cutShort w => .next (abandonCommand s w)

/-- One step, written here so that Step.lean only calls it: the engine takes the host's next event and runs it to completion
(R39, R122); with no event it waits, keeping all its state (R114). -/
def advance (s : State) : Host.Outcome State Fault Refusal :=
  match nextEvent s with
  | none => .next s
  | some (e, s) => runEvent e s

end Sys2Proof.Machine
end

