-- ==== Sys2Proof/Machine/Step.lean ====
section
/-! DEFINITION. One step of the engine: an atomic transition per event of the host (70_reset_and_hazards.md R122). -/

namespace Sys2Proof.Machine

/-- One step (Machine/Command.lean `advance`): the host's next event, run to completion. -/
def step (s : State) : Host.Outcome State Fault Refusal := advance s

/-- `s` with the instruction whose bits are `w`, as the opcode table numbers them, presented as the next command (log
entry 7). -/
def State.withFetchWord (s : State) (nbits w : Nat) : State := s.presentFirst (.command (tableWord nbits w))

end Sys2Proof.Machine
end

