-- ==== Sys2Proof/Machine/AsmText.lean ====
section
/-! DEFINITION. The textual assembler syntax (30_encoding.md R72): "the mnemonic in capitals, then its operands separated
by a comma and a space, A first. Numbers are decimal, or hexadecimal with 0x. A ; starts a comment." -/

namespace Sys2Proof.Machine

/-- The value of a decimal digit. -/
def decDigit (ch : Char) : Option Nat := if '0' ≤ ch ∧ ch ≤ '9' then some (ch.toNat - 48) else none

/-- The value of a hexadecimal digit, in either case (log entry 15). -/
def hexDigitValue (ch : Char) : Option Nat :=
  if '0' ≤ ch ∧ ch ≤ '9' then some (ch.toNat - 48)
  else if 'a' ≤ ch ∧ ch ≤ 'f' then some (ch.toNat - 87)
  else if 'A' ≤ ch ∧ ch ≤ 'F' then some (ch.toNat - 55)
  else none

/-- Digits in a base, the first most significant. -/
def digitsValue (base : Nat) (digit : Char → Option Nat) : Nat → List Char → Option Nat
  | acc, [] => some acc
  | acc, ch :: rest =>
    match digit ch with
    | none => none
    | some d => digitsValue base digit (base * acc + d) rest

/-- A number: decimal, or hexadecimal with `0x` (R72). -/
def parseNumber : List Char → Option Nat
  | '0' :: 'x' :: d :: rest => digitsValue 16 hexDigitValue 0 (d :: rest)
  | d :: rest => digitsValue 10 decDigit 0 (d :: rest)
  | [] => none

/-- Operands separated by a comma and a space (R72); the first argument holds the current operand, reversed. -/
def splitOperands : List Char → List Char → List (List Char)
  | acc, [] => [acc.reverse]
  | acc, ',' :: ' ' :: rest => acc.reverse :: splitOperands [] rest
  | acc, ch :: rest => splitOperands (ch :: acc) rest

/-- The line without its comment and without spaces at its end. -/
def stripComment (line : List Char) : List Char :=
  ((line.takeWhile (· ≠ ';')).reverse.dropWhile (· = ' ')).reverse

/-- The operands' texts: none after a bare mnemonic, else those after one space. -/
def operandTexts : List Char → List (List Char)
  | ' ' :: rest => splitOperands [] rest
  | _ => []

/-- One line of assembler text (R72); `none` where it is no line of this syntax. -/
def parseLine (line : List Char) : Option AsmLine :=
  let code := stripComment line
  let word := code.takeWhile (· ≠ ' ')
  let texts := operandTexts (code.drop word.length)
  if word = "INIT".toList then
    match texts.map parseNumber with
    | [some nn, some kk] => some (.init nn kk)
    | _ => none
  else if word = "KEYB".toList then
    match texts.map parseNumber with
    | [some x] => some (.keyb x)
    | _ => none
  else if word = "ABSB".toList then
    match texts.map parseNumber with
    | [some x] => some (.absb x)
    | _ => none
  else if word = "FINAL".toList then if texts = [] then some .final else none
  else if word = "RDD".toList then
    match texts.map parseNumber with
    | [some idx] => some (.rdd idx)
    | _ => none
  else if word = "STAT".toList then if texts = [] then some .stat else none
  else none

/-- Text to word (R72). -/
def assembleText (line : List Char) : Option Word := (parseLine line).bind assemble

/-- A number in decimal. -/
def decimalText (n : Nat) : List Char := Nat.toDigits 10 n

/-- The text of a line (R72), with decimal operands. -/
def lineText : AsmLine → List Char
  | .init nn kk => "INIT ".toList ++ decimalText nn ++ ", ".toList ++ decimalText kk
  | .keyb x => "KEYB ".toList ++ decimalText x
  | .absb x => "ABSB ".toList ++ decimalText x
  | .final => "FINAL".toList
  | .rdd idx => "RDD ".toList ++ decimalText idx
  | .stat => "STAT".toList

end Sys2Proof.Machine
end

