-- ==== Sys2Proof/Machine/Digest.lean ====
section
/-! DEFINITION. The digest as a function of output length, key bytes and message bytes (70_reset_and_hazards.md R128, "the
function of (nn, key bytes, message bytes) given by rules R80 to R84"), written on byte strings with no buffer, no fill
count and no phase, so that the streaming commands can be compared with it. -/

namespace Sys2Proof.Machine

/-- A block given as at most 128 bytes, zero-padded, as sixteen little-endian message words (R32, R55, R83). -/
def blockWords (bs : List Byte) : Vector Lane 16 :=
  Vector.ofFn fun i =>
    bs.getD (8 * i.val + 7) 0 ++ bs.getD (8 * i.val + 6) 0 ++ bs.getD (8 * i.val + 5) 0 ++ bs.getD (8 * i.val + 4) 0 ++
      bs.getD (8 * i.val + 3) 0 ++ bs.getD (8 * i.val + 2) 0 ++ bs.getD (8 * i.val + 1) 0 ++ bs.getD (8 * i.val) 0

/-- The key block (R88): the key padded with zeros to a full block; no block without a key. -/
def keyBlock (key : List Byte) : List Byte :=
  if key = [] then [] else key ++ List.replicate (blockBytes - key.length) 0

/-- All bytes fed to a context: the key block, then the message (R88). -/
def inputBytes (key msg : List Byte) : List Byte := keyBlock key ++ msg

/-- The chaining state after the first `k` blocks of `data`, each compressed with `f = 0` and the offset that includes it
(R82, R86). -/
def chainAfter (h : Vector Lane 8) (data : List Byte) : Nat → Vector Lane 8
  | 0 => h
  | k + 1 =>
    compress (chainAfter h data k) (blockWords ((data.drop (blockBytes * k)).take blockBytes))
      (BitVec.ofNat 64 (blockBytes * (k + 1))) notFinal

/-- How many blocks of `n` bytes of input are compressed before the final one (R82: a full block only when more input
follows; C7). -/
def blocksBeforeLast (n : Nat) : Nat := (n - 1) / blockBytes

/-- The final chaining value (R83): the last block compressed with `f = 1` and the total byte count as offset. -/
def finalChain (nn : Byte) (key msg : List Byte) : Vector Lane 8 :=
  let data := inputBytes key msg
  let k := blocksBeforeLast data.length
  compress (chainAfter (initialChain nn (BitVec.ofNat 8 key.length)) data k) (blockWords (data.drop (blockBytes * k)))
    (BitVec.ofNat 64 data.length) isFinal

/-- The digest: the first `nn` bytes of the digest window (R35, R84). -/
def digest (nn : Byte) (key msg : List Byte) : List Byte :=
  ((List.finRange 64).take nn.toNat).map (digRead (finalChain nn key msg))

end Sys2Proof.Machine
end

