-- ==== Sys2Proof/Machine/HostApi.lean ====
section
/-! DEFINITION. The host side: the pseudo-instructions `INITK`, `UPDATE`, `DIGEST`, `HASH`, `HASHHEX` (30_encoding.md R73,
43_host_api.md R96 to R99), each an expansion into commands, and a host that sends commands one at a time and stops at
the first response that is not `OK`. -/

namespace Sys2Proof.Machine

/-- Why a call of the host API fails (R96, R97, R99). -/
inductive HostError where
  /-- `InvalidParameter` raised by the host itself: the key length does not fit field `B`; nothing is issued (R96). -/
  | invalidParameter
  /-- `InvalidInput`: the text has a character above U+00FF, or the argument is neither text nor bytes; nothing is issued
  (R99). -/
  | invalidInput
  /-- A response whose status is not `OK` (R96, R97). -/
  | engine (status : Byte)
  /-- The engine gave no response (a step that stopped; no run reaches one). -/
  | noResponse
  deriving DecidableEq, Repr

/-- What a host has after sending commands: the engine, the responses in order, and the failure it stopped at. -/
structure HostRun where
  engine : State
  replies : List Word
  error : Option HostError
  deriving DecidableEq, Repr

/-- `INITK nn, key` (R73, R96): `INIT nn, n`, then the key bytes; fails when `n > 255`. -/
def initkCommands (nn : Byte) (key : List Byte) : Option (List Instr) :=
  if key.length ≤ 255 then some (.init nn (BitVec.ofNat 8 key.length) :: key.map .keyb) else none

/-- `UPDATE bytes` (R73, R96): one `ABSB` per byte, in order; no command for no bytes. -/
def updateCommands (bytes : List Byte) : List Instr := bytes.map .absb

/-- `DIGEST` (R73, R97): `FINAL`, then `RDD 0`, …, `RDD nn−1`. -/
def digestCommands (nn : Byte) : List Instr := .final :: (List.range nn.toNat).map fun j => .rdd (BitVec.ofNat 8 j)

/-- `HASH input, key, nn` (R73, R97). -/
def hashCommands (input key : List Byte) (nn : Byte) : Option (List Instr) :=
  (initkCommands nn key).map fun start => start ++ updateCommands input ++ digestCommands nn

/-- The status of a response word (R65). -/
def rspStatus (w : Word) : Byte := w.extractLsb' 24 8

/-- The data byte of an `RDD` response, data bits 7:0 (R65, R84). -/
def rspByte (w : Word) : Byte := w.extractLsb' 0 8

/-- The host presents one command to a waiting engine and takes its response, the last one on the port. -/
def sendOne (s : State) (i : Instr) : Option (State × Word) :=
  match step { s with inputs := [.command (encode i)] } with
  | .next s' => s'.responses.getLast?.map fun w => (s', w)
  | .fault _ => none
  | .refused _ => none

/-- Send commands in order; "the host must stop at the first response whose status is not OK" (R96). -/
def send (s : State) : List Instr → HostRun
  | [] => ⟨s, [], none⟩
  | i :: rest =>
    match sendOne s i with
    | none => ⟨s, [], some .noResponse⟩
    | some (s', w) =>
      if rspStatus w = 0 then
        let r := send s' rest
        { r with replies := w :: r.replies }
      else ⟨s', [w], some (.engine (rspStatus w))⟩

/-- The expansion of `HASH` for an input and a key that are bytes already (R97): the engine afterwards and the `nn` bytes of
the `RDD` responses in index order, or the failure. -/
def hostHash (s : State) (input key : List Byte) (nn : Byte) : State × Except HostError (List Byte) :=
  match hashCommands input key nn with
  | none => (s, .error .invalidParameter)
  | some commands =>
    let r := send s commands
    match r.error with
    | some e => (r.engine, .error e)
    | none => (r.engine, .ok ((r.replies.drop (r.replies.length - nn.toNat)).map rspByte))

/-- One lowercase hexadecimal digit (R98). -/
def hexDigit (n : Nat) : Char := "0123456789abcdef".toList.getD n '0'

/-- `HASHHEX`'s rendering (R98): two characters per byte, the most significant nibble first, bytes in order. -/
def hexText (bytes : List Byte) : List Char :=
  bytes.flatMap fun d => [hexDigit (d.toNat / 16), hexDigit (d.toNat % 16)]

/-- Text input (R99): one byte per character, refused when a code point is above 0xFF. -/
def textBytes (text : List Char) : Except HostError (List Byte) :=
  if text.all (fun ch => decide (ch.toNat ≤ 0xFF)) then .ok (text.map fun ch => BitVec.ofNat 8 ch.toNat)
  else .error .invalidInput

/-- What a caller hands to the API (R99): text, raw bytes, or a value of another type, of which all that matters is that
"the input-normalization step cannot interpret" it. -/
inductive HostInput where
  | text (chars : List Char)
  | bytes (bs : List Byte)
  | other
  deriving DecidableEq, Repr

/-- Input normalisation (R99, R105), before any command is issued. -/
def HostInput.normalize : HostInput → Except HostError (List Byte)
  | .text chars => textBytes chars
  | .bytes bs => .ok bs
  | .other => .error .invalidInput

/-- The key as bytes (R99: "The same mapping applies to a key given as text"); an absent key is the empty key (R97). -/
def normalizeKey : Option HostInput → Except HostError (List Byte)
  | none => .ok []
  | some key => key.normalize

/-- `HASH input, key, nn` as a caller uses it (R97, R99, D27): input and key are normalised, an absent key is empty, an absent
output length is 64, and only then is anything issued. Where normalisation fails and the key is also longer than 255
bytes (R96), the spec gives no order between the two host errors: that `InvalidInput` is the one reported is the model's
DESIGN CHOICE (log entry 19). -/
def hostHashDefault (s : State) (input : HostInput) (key : Option HostInput) (nn : Option Byte) :
    State × Except HostError (List Byte) :=
  match input.normalize, normalizeKey key with
  | .ok inputBs, .ok keyBs => hostHash s inputBs keyBs (nn.getD 64)
  | .error e, _ => (s, .error e)
  | .ok _, .error e => (s, .error e)

/-- `HASHHEX input, key, nn` (R98): "same as `hash`", absent arguments and all, then rendered. The order of the host's two
errors is that of `hostHashDefault` (log entry 19). -/
def hostHashHex (s : State) (input : HostInput) (key : Option HostInput) (nn : Option Byte) :
    State × Except HostError (List Char) :=
  match hostHashDefault s input key nn with
  | (s', .ok ds) => (s', .ok (hexText ds))
  | (s', .error e) => (s', .error e)

end Sys2Proof.Machine
end

