-- ==== Sys2Proof/Machine/Instances.lean ====
section
/-! DEFINITION. Several engine instances (60_exceptions.md R112): independent machines that share the constants and nothing
else. Each has its own state, with its own scratch, and its own stream of commands (log entry 18). -/

namespace Sys2Proof.Machine

/-- One step of instance `k`; the others do nothing. There is no instance outside the list. -/
def stepInstance (engines : List State) (k : Nat) : Host.Outcome (List State) Fault Refusal :=
  match engines[k]? with
  | none => .next engines
  | some s =>
    match step s with
    | .next s' => .next (engines.set k s')
    | .fault r => .fault r
    | .refused r => .refused r

/-- Steps of instances in any interleaving the list gives, the first one first. -/
def runInstances (engines : List State) : List Nat → Host.Outcome (List State) Fault Refusal
  | [] => .next engines
  | k :: rest =>
    match stepInstance engines k with
    | .next engines' => runInstances engines' rest
    | .fault r => .fault r
    | .refused r => .refused r

end Sys2Proof.Machine
end

