-- ==== Sys2Proof/Machine/Pair.lean ====
section
/-! DEFINITION. The datapath on 32-bit pairs, `DP_REPR = pair32` (10_state.md R28, 40_arith_primitives.md R49, R50,
41_compression.md R64): the same functions with every lane held as a low and a high word. The engine's meanings use the
64-bit form; which of the two a machine has cannot be observed (R7, D19). -/

namespace Sys2Proof.Machine

/-- A lane as two words (R28). -/
structure LanePair where
  lo : Word
  hi : Word
  deriving DecidableEq, Repr

/-- `lo32(x)`, `hi32(x)` (R8). -/
def splitLane (x : Lane) : LanePair := ⟨x.extractLsb' 0 32, x.extractLsb' 32 32⟩

/-- `lane = hi·2^32 + lo` (R28). -/
def joinLane (p : LanePair) : Lane := p.hi ++ p.lo

/-- The pair form of `ADD64`: explicit carry propagation, the carry out of the high word discarded (R49). -/
def pairAdd (a b : LanePair) : LanePair :=
  let s := a.lo.toNat + b.lo.toNat
  let carry := s / 2 ^ 32
  ⟨BitVec.ofNat 32 (s % 2 ^ 32), BitVec.ofNat 32 ((a.hi.toNat + b.hi.toNat + carry) % 2 ^ 32)⟩

/-- `XOR64` acts on the two halves independently (R50). -/
def pairXor (a b : LanePair) : LanePair := ⟨a.lo ^^^ b.lo, a.hi ^^^ b.hi⟩

/-- `NOT64` acts on the two halves independently (R50). -/
def pairNot (a : LanePair) : LanePair := ⟨~~~a.lo, ~~~a.hi⟩

/-- The pair form of `ROTR64_32` (R50). -/
def pairRotr32 (x : LanePair) : LanePair := ⟨x.hi, x.lo⟩

/-- The pair form of `ROTR64_24` (R50). -/
def pairRotr24 (x : LanePair) : LanePair := ⟨(x.lo >>> 24) ||| (x.hi <<< 8), (x.hi >>> 24) ||| (x.lo <<< 8)⟩

/-- The pair form of `ROTR64_16` (R50). -/
def pairRotr16 (x : LanePair) : LanePair := ⟨(x.lo >>> 16) ||| (x.hi <<< 16), (x.hi >>> 16) ||| (x.lo <<< 16)⟩

/-- The pair form of `ROTR64_63` (R50). -/
def pairRotr63 (x : LanePair) : LanePair := ⟨(x.hi >>> 31) ||| (x.lo <<< 1), (x.lo >>> 31) ||| (x.hi <<< 1)⟩

/-- Word `j` of a file of lanes: lane `i` is words `2i` (low) and `2i + 1` (high) (R28). -/
def wordOfLanes {n : Nat} (v : Vector Lane n) (j : Nat) (hj : j / 2 < n) : Word :=
  if j % 2 = 0 then (splitLane v[j / 2]).lo else (splitLane v[j / 2]).hi

/-- A state of 8 lanes as 16 words (R28). -/
def splitState (h : Vector Lane 8) : Vector Word 16 := Vector.ofFn fun j => wordOfLanes h j.val (by omega)

/-- A working vector or the message words, 16 lanes, as 32 words (R28). -/
def splitWork (v : Vector Lane 16) : Vector Word 32 := Vector.ofFn fun j => wordOfLanes v j.val (by omega)

/-- Lane `i` of a word file of 16 lanes (R64). -/
def getPair (v : Vector Word 32) (i : Fin 16) : LanePair := ⟨v[2 * i.val], v[2 * i.val + 1]⟩

/-- Write lane `i` of a word file of 16 lanes (R64). -/
def setPair (v : Vector Word 32) (i : Fin 16) (p : LanePair) : Vector Word 32 :=
  (v.set (2 * i.val) p.lo).set (2 * i.val + 1) p.hi

/-- The schedule with every entry doubled (R64): the index of the low word of message word `SIGMA[r][k]`. -/
def sigmaDoubled (r : Fin 12) (k : Fin 16) : Fin 31 := ⟨2 * (sigma r k).val, by have := (sigma r k).isLt; omega⟩

/-- The message word at a doubled schedule entry `e`: low word `e`, high word `e + 1` (R64). -/
def pairWord (m : Vector Word 32) (e : Fin 31) : LanePair := ⟨m[e.val], m[e.val + 1]⟩

/-- `IV` as words. -/
def pairIV : Vector Word 16 := splitState IV

/-- `LOADM` as words: word `j` is four bytes from address `4j`, lowest address least significant. -/
def pairLoadM (b : List Host.Cell) : Vector Word 32 :=
  Vector.ofFn fun j =>
    Memory.read b (4 * j.val + 3) ++ Memory.read b (4 * j.val + 2) ++ Memory.read b (4 * j.val + 1) ++
      Memory.read b (4 * j.val)

/-- `VINIT` as words (R64): word 24 takes `t[31:0]`, word 25 takes `t[63:32]`; words 28 and 29 are complemented on the
final block. -/
def pairVInit (h : Vector Word 16) (t : Lane) (f : Bool) : Vector Word 32 :=
  let v : Vector Word 32 := Vector.ofFn fun j => if hj : j.val < 16 then h[j.val] else pairIV[j.val - 16]
  let v := v.set 24 (v[24] ^^^ t.extractLsb' 0 32)
  let v := v.set 25 (v[25] ^^^ t.extractLsb' 32 32)
  if f then (v.set 28 (~~~v[28])).set 29 (~~~v[29]) else v

/-- `G` on pairs (R57 with R49, R50). -/
def pairG (q : Quad) (x y : LanePair) (v : Vector Word 32) : Vector Word 32 :=
  let v := setPair v q.ia (pairAdd (pairAdd (getPair v q.ia) (getPair v q.ib)) x)
  let v := setPair v q.id (pairRotr32 (pairXor (getPair v q.id) (getPair v q.ia)))
  let v := setPair v q.ic (pairAdd (getPair v q.ic) (getPair v q.id))
  let v := setPair v q.ib (pairRotr24 (pairXor (getPair v q.ib) (getPair v q.ic)))
  let v := setPair v q.ia (pairAdd (pairAdd (getPair v q.ia) (getPair v q.ib)) y)
  let v := setPair v q.id (pairRotr16 (pairXor (getPair v q.id) (getPair v q.ia)))
  let v := setPair v q.ic (pairAdd (getPair v q.ic) (getPair v q.id))
  setPair v q.ib (pairRotr63 (pairXor (getPair v q.ib) (getPair v q.ic)))

/-- Invocation `g` of round `r` on pairs (R54, R64). -/
def pairInvoke (m : Vector Word 32) (r : Fin 12) (v : Vector Word 32) (g : Fin 8) : Vector Word 32 :=
  pairG QUAD[g] (pairWord m (sigmaDoubled r ⟨2 * g.val, by omega⟩))
    (pairWord m (sigmaDoubled r ⟨2 * g.val + 1, by omega⟩)) v

/-- `ROUND(r)` on pairs. -/
def pairRound (m : Vector Word 32) (v : Vector Word 32) (r : Fin 12) : Vector Word 32 :=
  (List.finRange 8).foldl (pairInvoke m r) v

/-- The feed-forward on words: word `j` of the state with words `j` and `j + 16` of the working vector. -/
def pairFeedForward (h : Vector Word 16) (v : Vector Word 32) : Vector Word 16 :=
  Vector.ofFn fun j => h[j] ^^^ v[j.val] ^^^ v[j.val + 16]

/-- `F` on pairs (R64: "the same function as rules R55 to R60"). -/
def pairF (h : Vector Word 16) (b : List Host.Cell) (t : Lane) (f : Bool) : Vector Word 16 :=
  pairFeedForward h ((List.finRange 12).foldl (pairRound (pairLoadM b)) (pairVInit h t f))

end Sys2Proof.Machine
end

