-- ==== Sys2Proof/Machine/Port.lean ====
section
/-! DEFINITION. The command and response ports, cycle by cycle (70_reset_and_hazards.md R116, R117, R120, R122): the
valid/ready handshake around the same `runCommand` and `resetEvent` the step uses. The spec has no cycle counts: the
latency is a free value (R121, R122; log entry 13). -/

namespace Sys2Proof.Machine

/-- What the host drives in one clock cycle (R120): `rst`, `cmd_valid`, `cmd`. -/
structure PortIn where
  rst : Bool
  cmdValid : Bool
  cmd : Word
  deriving DecidableEq, Repr

/-- What the engine drives in one clock cycle (R120): `cmd_ready`; `rsp` with `rsp_valid`, as one optional word. -/
structure PortOut where
  cmdReady : Bool
  rsp : Option Word
  deriving DecidableEq, Repr

/-- The engine with its handshake: the command in flight, if any, with the number of cycles before its response cycle, and
how many commands have been accepted. -/
structure PortState where
  engine : State
  busy : Option (Word × Nat)
  accepted : Nat
  deriving DecidableEq, Repr

/-- The port after reset (R116): no command in flight. -/
def portReset : PortState := ⟨State.reset, none, 0⟩

/-- The response word of a command that completes. -/
def portResponse (w : Word) (s : State) : Option Word :=
  match runCommand w s with
  | .next s' => s'.responses.getLast?
  | .fault _ => none
  | .refused _ => none

/-- The outputs of one cycle (R120, R122): ready when no command is in flight, but not in a reset cycle, whose word is not
accepted (R117); the response in the one cycle in which the command completes, and none in a cycle in which reset abandons
it (R117). -/
def portOut (p : PortState) (i : PortIn) : PortOut :=
  match p.busy with
  | none => ⟨!i.rst, none⟩
  | some (w, 0) => ⟨false, if i.rst then none else portResponse w p.engine⟩
  | some (_, _ + 1) => ⟨false, none⟩

/-- The state at the next rising edge (R116, R117, R120, R122). -/
def portClock (p : PortState) (i : PortIn) : Host.Outcome PortState Fault Refusal :=
  if i.rst then .next { p with engine := resetEvent p.engine, busy := none }
  else
    match p.busy with
    | none =>
      if i.cmdValid then
        .next { p with busy := some (i.cmd, Config.extraCycles i.cmd p.accepted), accepted := p.accepted + 1 }
      else .next p
    | some (w, n + 1) => .next { p with busy := some (w, n) }
    | some (w, 0) =>
      match runCommand w p.engine with
      | .next s => .next { p with engine := s, busy := none }
      | .fault r => .fault r
      | .refused r => .refused r

/-- Several cycles: the outputs of each, and the state after them. -/
def portRun : PortState → List PortIn → Host.Outcome (PortState × List PortOut) Fault Refusal
  | p, [] => .next (p, [])
  | p, i :: rest =>
    match portClock p i with
    | .fault r => .fault r
    | .refused r => .refused r
    | .next p' =>
      match portRun p' rest with
      | .next (q, outs) => .next (q, portOut p i :: outs)
      | .fault r => .fault r
      | .refused r => .refused r

end Sys2Proof.Machine
end

