-- ==== Sys2Proof/Machine/Sequencer.lean ====
section
/-! DEFINITION. The compression sequencer (10_state.md R16, 41_compression.md R61): the same commit as `commit`, one G
invocation at a time on the scratch `v`, `m`, `(r, g)` of the state. Nothing observes the state in the middle (R122), so
the step does not use it. -/

namespace Sys2Proof.Machine

/-- How one invocation of the sequencer leaves the commit. -/
inductive SeqResult where
  /-- The next invocation follows. -/
  | running (s : State)
  /-- The feed-forward has run and the commit has ended. -/
  | finished (s : State)
  deriving DecidableEq, Repr

/-- The start of a commit: `t` updated, the scratch fully written, the index at `(0, 0)` (R86, R59, R16, R24). -/
def seqBegin (s : State) (n : Byte) (f : Bool) : State :=
  let t := s.t + n.setWidth 64
  { s with t := t, v := vInit s.h t f, m := loadM s.b, seqR := 0, seqG := 0 }

/-- The index after `(r, g)` (R61): `(r, g + 1)` for `g < 7`, `(r + 1, 0)` after `(r, 7)` for `r < 11`, none after
`(11, 7)`. -/
def seqNext (r : Fin 12) (g : Fin 8) : Option (Fin 12 × Fin 8) :=
  if hg : g.val < 7 then some (r, ⟨g.val + 1, by omega⟩)
  else if hr : r.val < 11 then some (⟨r.val + 1, by omega⟩, 0)
  else none

/-- One invocation at the current index, then the next index, or the feed-forward and the end of the commit (R61, R60),
after which the scratch has no value (R24). -/
def seqStep (s : State) : SeqResult :=
  let v := invoke s.m s.seqR s.v s.seqG
  match seqNext s.seqR s.seqG with
  | some (r, g) => .running { s with v := v, seqR := r, seqG := g }
  | none =>
    .finished (freeScratch { s with h := feedForward s.h v })

/-- At most `k` invocations: the state at the end of the commit, if it ends within them. -/
def seqRun : Nat → State → Option State
  | 0, _ => none
  | k + 1, s =>
    match seqStep s with
    | .running s' => seqRun k s'
    | .finished s' => some s'

end Sys2Proof.Machine
end

