-- ==== Sys2Proof/Safety.lean ====
section
/-! DEFINITION. What counts as a safe engine, in the terms the statements use: the invariants of the context (10_state.md
R26), what it means that a context has absorbed a key and a message, the priority of refusals (60_exceptions.md R108), the
phase table (42_stream_commands.md R89), and when two states look alike from outside (10_state.md R24, R29). -/

namespace Sys2Proof.Machine

/-- R18, R26 (ii): the latched lengths are legal. -/
def ParamLegal (s : State) : Prop := 1 ≤ s.nn.toNat ∧ s.nn.toNat ≤ 64 ∧ s.kk.toNat ≤ 64

/-- The invariants of the context (R26), with the reset values in `IDLE` (R27) and the canonical form of the buffer. -/
def Inv (s : State) : Prop :=
  Memory.wf s.b = true ∧
    match s.phase with
    | .idle => s.c = 0 ∧ s.t = 0 ∧ s.nn = 0 ∧ s.kk = 0
    | .keyload =>
      ParamLegal s ∧ s.t = 0 ∧ s.c.toNat < s.kk.toNat ∧ ∀ a, s.c.toNat ≤ a → Memory.read s.b a = 0
    | .absorb =>
      ParamLegal s ∧ s.c.toNat ≤ 128 ∧ s.t.toNat ≤ tMax ∧ s.t.toNat % 128 = 0 ∧
        (s.kk ≠ 0 → s.t = 0 → s.c = 128) ∧ (s.c = 0 → s.t = 0 ∧ s.kk = 0)
    | .done => ParamLegal s ∧ s.c = 128 ∧ s.t.toNat ≤ tMax ∧ (s.kk ≠ 0 → 128 ≤ s.t.toNat)

/-- A keyed context of key length `n` in `KEYLOAD` that has taken the key bytes `part` so far (R81, R88, R26 (v)). -/
def KeyLoading (s : State) (n : Nat) (part : List Byte) : Prop :=
  s.phase = .keyload ∧ Memory.wf s.b = true ∧ outLenLegal s.nn = true ∧ 1 ≤ n ∧ n ≤ 64 ∧ s.kk = BitVec.ofNat 8 n ∧
    part.length < n ∧ s.c.toNat = part.length ∧ s.t = 0 ∧ s.h = initialChain s.nn s.kk ∧
    ∀ a, Memory.read s.b a = part.getD a 0

/-- A context in `ABSORB` that has absorbed `key` and `msg` so far (R26 (iv), R82, R88, R90 (iv)): every full block that
was followed by input is in `h`, the rest is in the buffer. -/
def Absorbed (s : State) (key msg : List Byte) : Prop :=
  s.phase = .absorb ∧ Memory.wf s.b = true ∧ outLenLegal s.nn = true ∧ key.length ≤ 64 ∧
    s.kk = BitVec.ofNat 8 key.length ∧
    s.t.toNat = 128 * blocksBeforeLast (inputBytes key msg).length ∧
    s.t.toNat + s.c.toNat = (inputBytes key msg).length ∧
    s.h = chainAfter (initialChain s.nn s.kk) (inputBytes key msg) (blocksBeforeLast (inputBytes key msg).length) ∧
    ∀ a, a < s.c.toNat → Memory.read s.b a = (inputBytes key msg).getD (s.t.toNat + a) 0

/-- Check 2 of R108: the phase a command is legal in. -/
def phaseAllows : Instr → State → Bool
  | .init _ _, _ => true
  | .keyb _, s => decide (s.phase = .keyload)
  | .absb _, s => decide (s.phase = .absorb)
  | .final, s => decide (s.phase = .absorb)
  | .rdd _, s => decide (s.phase = .done)
  | .stat, _ => true

/-- Check 3 of R108: the operand range. -/
def operandAllows : Instr → State → Bool
  | .init nn kk, _ => decide (1 ≤ nn.toNat ∧ nn.toNat ≤ 64 ∧ kk.toNat ≤ 64)
  | .keyb _, _ => true
  | .absb _, _ => true
  | .final, _ => true
  | .rdd idx, s => decide (idx.toNat < s.nn.toNat)
  | .stat, _ => true

/-- Check 4 of R108: the counter bound. -/
def lengthAllows : Instr → State → Bool
  | .init _ _, _ => true
  | .keyb _, _ => true
  | .absb _, s => decide ¬(s.c.toNat = 128 ∧ s.t.toNat + 128 > 2 ^ 53 - 1)
  | .final, s => decide ¬(s.t.toNat + s.c.toNat > 2 ^ 53 - 1)
  | .rdd _, _ => true
  | .stat, _ => true

/-- The status R108 gives a command: the first check that fails, in the order phase, operand, length. -/
def commandStatus (i : Instr) (s : State) : Status :=
  if phaseAllows i s = false then .eState
  else if operandAllows i s = false then .eParam
  else if lengthAllows i s = false then .eLength
  else .ok

/-- The status R108 gives a word: decode comes first. -/
def wordStatus (w : Word) (s : State) : Status :=
  match decode w with
  | .ok i => commandStatus i s
  | .illegal _ => .eIllegal

/-- The commands that commit (R86): a successful `FINAL`, and a successful `ABSB` that finds the buffer full (R82, R83). -/
def Commits (i : Instr) (s : State) : Prop :=
  commandStatus i s = .ok ∧ (i = .final ∨ ((∃ x, i = .absb x) ∧ s.c = 128))

/-- The next phase when a command succeeds, by the table of R89. -/
def phaseAfter (i : Instr) (s : State) : Phase :=
  match i with
  | .init _ kk => if kk = 0 then .absorb else .keyload
  | .keyb _ => if s.c.toNat + 1 = s.kk.toNat then .absorb else .keyload
  | .absb _ => .absorb
  | .final => .done
  | .rdd _ => .done
  | .stat => s.phase

/-- A word that is an `INIT` with legal operands: what ends one context and starts the next (R80). -/
def StartsContext (w : Word) : Prop :=
  ∃ nn kk, decode w = .ok (.init nn kk) ∧ outLenLegal nn = true ∧ keyLenLegal kk = true

/-- Two outcomes alike: both next with related states, or stopped for the same reason. -/
def OutcomesAgree (R : State → State → Prop) :
    Host.Outcome State Fault Refusal → Host.Outcome State Fault Refusal → Prop
  | .next s, .next t => R s t
  | .fault r, .fault q => r = q
  | .refused r, .refused q => r = q
  | _, _ => False

/-- Two states that differ in the hidden scratch at most (R24: `v`, `m`, `(r, g)`). -/
def SameButScratch (s t : State) : Prop :=
  s.h = t.h ∧ s.b = t.b ∧ s.c = t.c ∧ s.t = t.t ∧ s.nn = t.nn ∧ s.kk = t.kk ∧ s.phase = t.phase ∧ s.draws = t.draws ∧
    s.inputs = t.inputs ∧ s.responses = t.responses

/-- Two states that differ at most in what has no read path before `FINAL` (R29, R15): `h`, `b` and the scratch. -/
def SameButHidden (s t : State) : Prop :=
  s.c = t.c ∧ s.t = t.t ∧ s.nn = t.nn ∧ s.kk = t.kk ∧ s.phase = t.phase ∧ s.inputs = t.inputs ∧ s.responses = t.responses

end Sys2Proof.Machine
end

