-- ==== Sys2Proof/Certificates/Slice0/Obligations.lean ====
section
/-! DEFINITION. The statements for the provers, one per rule or group of rules of spec/. -/

open Sys2Proof Sys2Proof.Machine

/-! ### Encoding -/

/-- R65 to R67: decode and encode agree on every word and every command, so no operand bit is dropped and no word has two
readings. -/
def Obligations.DecodeEncodeAgree : Prop :=
  ∀ (w : Word) (i : Instr), decode w = .ok i ↔ w = encode i

/-- R67, R66: the six rows of the opcode map by match and mask, with operands `A = w[7:0]` and `B = w[15:8]`. -/
def Obligations.OpcodeMapRows : Prop :=
  ∀ w : Word,
    (w &&& 0xFFFF0000 = 0x01000000 ↔ decode w = .ok (.init (w.extractLsb' 0 8) (w.extractLsb' 8 8))) ∧
    (w &&& 0xFFFFFF00 = 0x02000000 ↔ decode w = .ok (.keyb (w.extractLsb' 0 8))) ∧
    (w &&& 0xFFFFFF00 = 0x03000000 ↔ decode w = .ok (.absb (w.extractLsb' 0 8))) ∧
    (w &&& 0xFFFFFFFF = 0x04000000 ↔ decode w = .ok .final) ∧
    (w &&& 0xFFFFFF00 = 0x05000000 ↔ decode w = .ok (.rdd (w.extractLsb' 0 8))) ∧
    (w &&& 0xFFFFFFFF = 0x06000000 ↔ decode w = .ok .stat)

/-- R68, R103: exactly the words R68 lists are illegal; each is answered `E_ILLEGAL` with data 0 in every state, and nothing
else changes. -/
def Obligations.IllegalWordsRefused : Prop :=
  (∀ w : Word, (∃ why, decode w = .illegal why) ↔
    (w.extractLsb' 24 8).toNat = 0x00 ∨ 0x07 ≤ (w.extractLsb' 24 8).toNat ∨ (w.extractLsb' 16 8).toNat ≠ 0 ∨
      ((w.extractLsb' 8 8).toNat ≠ 0 ∧ (w.extractLsb' 24 8).toNat ≠ 0x01) ∨
      ((w.extractLsb' 0 8).toNat ≠ 0 ∧ ((w.extractLsb' 24 8).toNat = 0x04 ∨ (w.extractLsb' 24 8).toNat = 0x06))) ∧
  (∀ (w : Word) (s : State), (∃ why, decode w = .illegal why) →
    runCommand w s = .next { s with responses := s.responses ++ [0x03000000] })

/-- R69: `INIT` takes 2^16 words, `KEYB`, `ABSB`, `RDD` 2^8 each, `FINAL` and `STAT` one each: 66 306 legal words in all. -/
def Obligations.LegalWordCount : Prop :=
  Nat.card { w : Word // ∃ nn kk, decode w = .ok (.init nn kk) } = 2 ^ 16 ∧
    Nat.card { w : Word // ∃ x, decode w = .ok (.keyb x) } = 2 ^ 8 ∧
    Nat.card { w : Word // ∃ x, decode w = .ok (.absb x) } = 2 ^ 8 ∧
    Nat.card { w : Word // decode w = .ok .final } = 1 ∧
    Nat.card { w : Word // ∃ idx, decode w = .ok (.rdd idx) } = 2 ^ 8 ∧
    Nat.card { w : Word // decode w = .ok .stat } = 1 ∧
    Nat.card { w : Word // ∃ i, decode w = .ok i } = 66306

/-- R67: words written out from the encodings of the six rows, one per row, and the words R68 names, decode as they should
(a sanity statement on fixed words). -/
def Obligations.SpecWordsDecode : Prop :=
  decode 0x01004020 = .ok (.init 0x20 0x40) ∧ decode 0x0200006b = .ok (.keyb 0x6b) ∧
    decode 0x03000061 = .ok (.absb 0x61) ∧ decode 0x04000000 = .ok .final ∧ decode 0x0500003f = .ok (.rdd 0x3f) ∧
    decode 0x06000000 = .ok .stat ∧ (∃ why, decode 0x00000000 = .illegal why) ∧
    (∃ why, decode 0xffffffff = .illegal why)

/-- R72: the assembler's words, and that it refuses an operand above 255 and no other. -/
def Obligations.AssemblerWords : Prop :=
  (∀ nn kk : Nat, assemble (.init nn kk) =
    if nn ≤ 255 ∧ kk ≤ 255 then some ((0x01000000 : Word) ||| (BitVec.ofNat 32 kk <<< 8) ||| BitVec.ofNat 32 nn) else none) ∧
  (∀ x : Nat, assemble (.keyb x) = if x ≤ 255 then some ((0x02000000 : Word) ||| BitVec.ofNat 32 x) else none) ∧
  (∀ x : Nat, assemble (.absb x) = if x ≤ 255 then some ((0x03000000 : Word) ||| BitVec.ofNat 32 x) else none) ∧
  assemble .final = some 0x04000000 ∧
  (∀ idx : Nat, assemble (.rdd idx) = if idx ≤ 255 then some ((0x05000000 : Word) ||| BitVec.ofNat 32 idx) else none) ∧
  assemble .stat = some 0x06000000

/-- R72, with the model's choice of spacing (log entry 15: one space after the mnemonic, a comma and a space between
operands, spaces before a comment dropped): the text the model writes for a well-formed line reads back as that line, with
or without a comment after it. -/
def Obligations.LineTextReadsBack : Prop :=
  ∀ l : AsmLine, l.wellFormed = true →
    parseLine (lineText l) = some l ∧ ∀ comment : List Char, parseLine (lineText l ++ ' ' :: ';' :: comment) = some l

/-! ### The step, reset -/

/-- R39, R69, R122: when the next event is a command word that decodes to `i`, the step is `exec i` on the state with that
event taken. The host's stream in the field `inputs` is the model's (log entry 7). -/
def Obligations.StepRunsDecodedCommand : Prop :=
  ∀ (s : State) (w : Word) (rest : List HostEvent) (i : Instr),
    s.inputs = .command w :: rest → decode w = .ok i → step s = exec i { s with inputs := rest }

/-- R114: with nothing from the host the engine waits, keeping all its state; the step that waits is the model's (log
entry 7). -/
def Obligations.StepWaitsForHost : Prop :=
  ∀ s : State, s.inputs = [] → step s = .next s

/-- R116, R27, R117: the reset event, between commands or in place of the completion of one, leaves `IDLE` and zero in `c`,
`t`, `nn`, `kk`, produces no response, and takes only its own event from the host. -/
def Obligations.ResetEventValues : Prop :=
  ∀ (s : State) (e : HostEvent) (rest : List HostEvent), s.inputs = e :: rest → (e = .reset ∨ ∃ w, e = .cutShort w) →
    ∃ t, step s = .next t ∧ t.phase = .idle ∧ t.c = 0 ∧ t.t = 0 ∧ t.nn = 0 ∧ t.kk = 0 ∧
      t.responses = s.responses ∧ t.inputs = rest

/-- R27: the values the spec gives for reset. -/
def Obligations.ResetStateValues : Prop :=
  State.reset.phase = .idle ∧ State.reset.c = 0 ∧ State.reset.t = 0 ∧ State.reset.nn = 0 ∧ State.reset.kk = 0

/-- R26, R27: the invariant holds at reset. -/
def Obligations.InvHoldsAtReset : Prop := Inv State.reset

/-- R26: every step keeps the invariant, from every state that has it. -/
def Obligations.InvKeptByStep : Prop :=
  ∀ s t : State, Inv s → step s = .next t → Inv t

/-- R115, R122: from a state with the invariant a step never stops, whatever the host does next. -/
def Obligations.StepNeverStops : Prop :=
  ∀ s : State, Inv s → ∃ t, step s = .next t

/-! ### Arithmetic primitives -/

/-- R42: `ADD64` is addition modulo 2^64, commutative and associative, with the corner cases and the example the rule lists. -/
def Obligations.Add64Wraps : Prop :=
  (∀ a b : Lane, (add64 a b).toNat = (a.toNat + b.toNat) % 2 ^ 64) ∧
    (∀ a b : Lane, add64 a b = add64 b a) ∧ (∀ a b d : Lane, add64 (add64 a b) d = add64 a (add64 b d)) ∧
    (∀ a : Lane, add64 a 0 = a) ∧ add64 0xFFFFFFFFFFFFFFFF 1 = 0 ∧
    add64 0x8000000000000000 0x8000000000000000 = 0 ∧
    add64 0xFFFFFFFFFFFFFFFF 0xFFFFFFFFFFFFFFFF = 0xFFFFFFFFFFFFFFFE ∧
    add64 0x6a09e667f3bcc908 0x510e527fade682d1 = 0xbb1838e7a1a34bd9

/-- R43: `XOR64` and `NOT64` act on 64 independent bit positions. -/
def Obligations.XorNotBitwise : Prop :=
  (∀ (a b : Lane) (i : Nat), i < 64 → (xor64 a b).getLsbD i = (a.getLsbD i ^^ b.getLsbD i)) ∧
    (∀ (a : Lane) (i : Nat), i < 64 → (not64 a).getLsbD i = !a.getLsbD i) ∧
    (∀ a : Lane, not64 a = xor64 a 0xFFFFFFFFFFFFFFFF) ∧ (∀ a : Lane, xor64 a a = 0) ∧ (∀ a : Lane, xor64 a 0 = a) ∧
    (∀ a : Lane, not64 (not64 a) = a) ∧ not64 0x1f83d9abfb41bd6b = 0xe07c265404be4294

/-- R44: bit `i` of `rotr64(x, n)` is bit `(i + n) mod 64` of `x`. -/
def Obligations.RotateMovesBits : Prop :=
  ∀ (x : Lane) (n i : Nat), 0 < n → n < 64 → i < 64 → (rotr64 x n).getLsbD i = x.getLsbD ((i + n) % 64)

/-- R45 to R48: the four rotates as concatenations of fields, their corner cases and their examples. -/
def Obligations.FourRotates : Prop :=
  (∀ x : Lane, rotr64By32 x = x.extractLsb' 0 32 ++ x.extractLsb' 32 32) ∧
    (∀ x : Lane, rotr64By32 (rotr64By32 x) = x) ∧
    (∀ x : Lane, rotr64By24 x = x.extractLsb' 0 24 ++ x.extractLsb' 24 40) ∧
    (∀ x : Lane, rotr64By16 x = x.extractLsb' 0 16 ++ x.extractLsb' 16 48) ∧
    (∀ x : Lane, rotr64By63 x = x.extractLsb' 0 63 ++ x.extractLsb' 63 1) ∧
    rotr64By32 1 = 0x0000000100000000 ∧ rotr64By24 1 = 0x0000010000000000 ∧ rotr64By16 1 = 0x0001000000000000 ∧
    rotr64By63 1 = 2 ∧ rotr64By63 0x8000000000000000 = 1 ∧ rotr64By32 0x0123456789abcdef = 0x89abcdef01234567 ∧
    rotr64By24 0x0123456789abcdef = 0xabcdef0123456789 ∧ rotr64By16 0x0123456789abcdef = 0xcdef0123456789ab ∧
    rotr64By63 0x0123456789abcdef = 0x02468acf13579bde

/-- R49, R50: the pair forms give the 64-bit results. -/
def Obligations.PairArithmeticAgrees : Prop :=
  (∀ a b : LanePair, joinLane (pairAdd a b) = add64 (joinLane a) (joinLane b)) ∧
    (∀ a b : LanePair, joinLane (pairXor a b) = xor64 (joinLane a) (joinLane b)) ∧
    (∀ a : LanePair, joinLane (pairNot a) = not64 (joinLane a)) ∧
    (∀ x : LanePair, joinLane (pairRotr32 x) = rotr64By32 (joinLane x)) ∧
    (∀ x : LanePair, joinLane (pairRotr24 x) = rotr64By24 (joinLane x)) ∧
    (∀ x : LanePair, joinLane (pairRotr16 x) = rotr64By16 (joinLane x)) ∧
    (∀ x : LanePair, joinLane (pairRotr63 x) = rotr64By63 (joinLane x))

/-! ### Compression -/

/-- R55, R33: message word `i` is the little-endian number of buffer bytes `8i` to `8i + 7`. -/
def Obligations.MessageWordsLittleEndian : Prop :=
  ∀ (b : List Host.Cell) (i : Fin 16),
    (loadM b)[i].toNat = ∑ j : Fin 8, (Memory.read b (8 * i.val + j.val)).toNat * 2 ^ (8 * j.val)

/-- R56: the sixteen lanes `VINIT` writes. -/
def Obligations.VInitLanes : Prop :=
  ∀ (h : Vector Lane 8) (t : Lane) (f : Bool),
    (∀ i : Fin 8, (vInit h t f)[i.val] = h[i]) ∧ (∀ i : Fin 4, (vInit h t f)[i.val + 8] = IV[i.val]) ∧
      (vInit h t f)[12] = 0x510e527fade682d1 ^^^ t ∧ (vInit h t f)[13] = 0x9b05688c2b3e6c1f ∧
      (vInit h t f)[14] = (if f then ~~~0x1f83d9abfb41bd6b else 0x1f83d9abfb41bd6b) ∧
      (vInit h t f)[15] = 0x5be0cd19137e2179

/-- R57: what `G` writes into its four lanes, step by step, and that every other lane keeps its value. -/
def Obligations.MixingFunctionLanes : Prop :=
  ∀ (q : Quad) (x y : Lane) (v : Vector Lane 16), [q.ia, q.ib, q.ic, q.id].Nodup →
    let a1 := v[q.ia] + v[q.ib] + x
    let d1 := (v[q.id] ^^^ a1).rotateRight 32
    let c1 := v[q.ic] + d1
    let b1 := (v[q.ib] ^^^ c1).rotateRight 24
    let a2 := a1 + b1 + y
    let d2 := (d1 ^^^ a2).rotateRight 16
    let c2 := c1 + d2
    let b2 := (b1 ^^^ c2).rotateRight 63
    (G q x y v)[q.ia] = a2 ∧ (G q x y v)[q.ib] = b2 ∧ (G q x y v)[q.ic] = c2 ∧ (G q x y v)[q.id] = d2 ∧
      ∀ i : Fin 16, i ∉ [q.ia, q.ib, q.ic, q.id] → (G q x y v)[i] = v[i]

/-- R60: the feed-forward. -/
def Obligations.FeedForwardLanes : Prop :=
  ∀ (h : Vector Lane 8) (v : Vector Lane 16) (i : Fin 8),
    (feedForward h v)[i] = h[i] ^^^ v[i.val] ^^^ v[i.val + 8]

/-- R52, R53, R54, R62: the entries of `IV`, `SIGMA` and `QUAD`, and which message words an invocation takes. Every row of
`SIGMA` is a permutation and rows 10 and 11 equal rows 0 and 1; the lanes of a quadruple are distinct; the four columns,
and the four diagonals, are disjoint; a diagonal takes one lane from each column. -/
def Obligations.ScheduleTablesWellMade : Prop :=
  IV.toList = [0x6a09e667f3bcc908, 0xbb67ae8584caa73b, 0x3c6ef372fe94f82b, 0xa54ff53a5f1d36f1,
      0x510e527fade682d1, 0x9b05688c2b3e6c1f, 0x1f83d9abfb41bd6b, 0x5be0cd19137e2179] ∧
    ((List.finRange 12).map fun r => (List.finRange 16).map fun k => (sigma r k).val) =
      [[0, 1, 2, 3, 4, 5, 6, 7, 8, 9, 10, 11, 12, 13, 14, 15],
       [14, 10, 4, 8, 9, 15, 13, 6, 1, 12, 0, 2, 11, 7, 5, 3],
       [11, 8, 12, 0, 5, 2, 15, 13, 10, 14, 3, 6, 7, 1, 9, 4],
       [7, 9, 3, 1, 13, 12, 11, 14, 2, 6, 5, 10, 4, 0, 15, 8],
       [9, 0, 5, 7, 2, 4, 10, 15, 14, 1, 11, 12, 6, 8, 3, 13],
       [2, 12, 6, 10, 0, 11, 8, 3, 4, 13, 7, 5, 15, 14, 1, 9],
       [12, 5, 1, 15, 14, 13, 4, 10, 0, 7, 6, 3, 9, 2, 8, 11],
       [13, 11, 7, 14, 12, 1, 3, 9, 5, 0, 15, 4, 8, 6, 2, 10],
       [6, 15, 14, 9, 11, 3, 0, 8, 12, 2, 13, 7, 1, 4, 10, 5],
       [10, 2, 8, 4, 7, 6, 1, 5, 15, 11, 9, 14, 3, 12, 13, 0],
       [0, 1, 2, 3, 4, 5, 6, 7, 8, 9, 10, 11, 12, 13, 14, 15],
       [14, 10, 4, 8, 9, 15, 13, 6, 1, 12, 0, 2, 11, 7, 5, 3]] ∧
    (QUAD.toList.map fun q => [q.ia.val, q.ib.val, q.ic.val, q.id.val]) =
      [[0, 4, 8, 12], [1, 5, 9, 13], [2, 6, 10, 14], [3, 7, 11, 15],
       [0, 5, 10, 15], [1, 6, 11, 12], [2, 7, 8, 13], [3, 4, 9, 14]] ∧
    (∀ (m v : Vector Lane 16) (r : Fin 12) (g : Fin 8),
      invoke m r v g = G QUAD[g] m[sigma r ⟨2 * g.val, by omega⟩] m[sigma r ⟨2 * g.val + 1, by omega⟩] v) ∧
    (∀ r : Fin 12, ∀ k : Fin 16, ∃ j : Fin 16, sigma r j = k) ∧
    (∀ k : Fin 16, sigma 10 k = sigma 0 k ∧ sigma 11 k = sigma 1 k) ∧
    ((List.finRange 4).flatMap fun g : Fin 4 =>
      [QUAD[g.val].ia, QUAD[g.val].ib, QUAD[g.val].ic, QUAD[g.val].id]).Nodup ∧
    ((List.finRange 4).flatMap fun g : Fin 4 =>
      [QUAD[g.val + 4].ia, QUAD[g.val + 4].ib, QUAD[g.val + 4].ic, QUAD[g.val + 4].id]).Nodup ∧
    (∀ d g : Fin 4, (([QUAD[d.val + 4].ia, QUAD[d.val + 4].ib, QUAD[d.val + 4].ic, QUAD[d.val + 4].id].filter
      fun l => l ∈ [QUAD[g.val].ia, QUAD[g.val].ib, QUAD[g.val].ic, QUAD[g.val].id]).length = 1))

/-- R61, R16, R59: the sequencer, one invocation at a time from `(0, 0)`, ends after exactly 96 invocations with the state
of the commit that applies `F` at once. In both the scratch ends as free values (log entries 4, 5). -/
def Obligations.SequencerRunsCommit : Prop :=
  ∀ (s : State) (n : Byte) (f : Bool),
    seqRun 96 (seqBegin s n f) = some (commit s n f) ∧ seqRun 95 (seqBegin s n f) = none

/-- R62: the four column invocations of a round may run in any order, and so may the four diagonal invocations. -/
def Obligations.GroupOrderIrrelevant : Prop :=
  ∀ (m : Vector Lane 16) (r : Fin 12) (v : Vector Lane 16) (order : List (Fin 8)),
    (order.Perm [0, 1, 2, 3] → order.foldl (invoke m r) v = [0, 1, 2, 3].foldl (invoke m r) v) ∧
      (order.Perm [4, 5, 6, 7] → order.foldl (invoke m r) v = [4, 5, 6, 7].foldl (invoke m r) v)

/-- R64, R28: the compression function on 32-bit pairs is the same function. -/
def Obligations.PairCompressionAgrees : Prop :=
  ∀ (h : Vector Lane 8) (b : List Host.Cell) (t : Lane) (f : Bool),
    pairF (splitState h) b t f = splitState (F h b t f)

/-! ### The commands -/

/-- R87: the four bytes of the parameter word, its three examples, and where it goes: zero-extended, into lane 0 of the
state that `INIT` starts from; the other lanes are `IV`. -/
def Obligations.ParameterWordFields : Prop :=
  (∀ nn kk : Byte, (paramWord nn kk).extractLsb' 0 8 = nn ∧ (paramWord nn kk).extractLsb' 8 8 = kk ∧
    (paramWord nn kk).extractLsb' 16 8 = 0x01 ∧ (paramWord nn kk).extractLsb' 24 8 = 0x01 ∧
    (initialChain nn kk)[0] = IV[0] ^^^ (paramWord nn kk).setWidth 64 ∧
    ∀ i : Fin 7, (initialChain nn kk)[i.val + 1] = IV[i.val + 1]) ∧
  paramWord 64 0 = 0x01010040 ∧ paramWord 32 3 = 0x01010320 ∧ paramWord 64 64 = 0x01014040

/-- R80: `INIT`, in every phase. Legal operands make a fresh context: `h` is `IV` with the zero-extended parameter word XORed
into lane 0, the buffer is zero, `c` and `t` are 0, `nn` and `kk` are the operands, the phase is `KEYLOAD` with a key and
`ABSORB` without. Other operands are refused and nothing changes. (What `INIT` does to the scratch is
`ScratchAfterCommand`.) -/
def Obligations.InitCreatesContext : Prop :=
  ∀ (s : State) (nn kk : Byte),
    ((1 ≤ nn.toNat ∧ nn.toNat ≤ 64 ∧ kk.toNat ≤ 64) →
      ∃ t, exec (.init nn kk) s = .next t ∧
        t.h[0] = (0x6a09e667f3bcc908 : Lane) ^^^ ((0x01010000 : Lane) ^^^ (kk.setWidth 64 <<< 8) ^^^ nn.setWidth 64) ∧
        (∀ i : Fin 7, t.h[i.val + 1] = IV[i.val + 1]) ∧ (∀ a, Memory.read t.b a = 0) ∧ t.c = 0 ∧ t.t = 0 ∧
        t.nn = nn ∧ t.kk = kk ∧ t.phase = (if 0 < kk.toNat then .keyload else .absorb) ∧
        t.responses = s.responses ++ [0x00000000] ∧ t.inputs = s.inputs) ∧
    (¬(1 ≤ nn.toNat ∧ nn.toNat ≤ 64 ∧ kk.toNat ≤ 64) →
      exec (.init nn kk) s = .next { s with responses := s.responses ++ [0x01000000] })

/-- R81: `KEYB`. In `KEYLOAD` the byte goes to address `c` and no other byte changes; on the last key byte `c` becomes
128 and the phase `ABSORB`, else `c` grows by one; everything else stays, and nothing is compressed. In any other phase it
is refused and nothing changes. That the scratch `v`, `m`, `(r, g)` and the model's own `draws` stay is not R81's but the
model's reading, DEDUCED (log entry 6). -/
def Obligations.KeybTakesKeyByte : Prop :=
  ∀ (s : State) (x : Byte),
    (s.phase = .keyload → Memory.wf s.b = true → s.c.toNat < 128 →
      ∃ t, exec (.keyb x) s = .next t ∧
        (∀ a, Memory.read t.b a = if a = s.c.toNat then x else Memory.read s.b a) ∧
        (s.c.toNat + 1 = s.kk.toNat → t.c.toNat = 128 ∧ t.phase = .absorb) ∧
        (s.c.toNat + 1 ≠ s.kk.toNat → t.c.toNat = s.c.toNat + 1 ∧ t.phase = .keyload) ∧
        t.responses = s.responses ++ [0x00000000] ∧ t.h = s.h ∧ t.t = s.t ∧ t.nn = s.nn ∧ t.kk = s.kk ∧
        t.v = s.v ∧ t.m = s.m ∧ t.seqR = s.seqR ∧ t.seqG = s.seqG ∧ t.draws = s.draws ∧ t.inputs = s.inputs) ∧
    (s.phase ≠ .keyload → exec (.keyb x) s = .next { s with responses := s.responses ++ [0x02000000] })

/-- R82: `ABSB`. In `ABSORB` with room in the buffer the byte goes to address `c`, `c` grows by one, nothing is compressed.
With a full buffer the block is committed first, with `f = 0` and the updated counter, then the byte goes to address 0 and
the other bytes stay; a commit that would take the counter above 2^53 − 1 is refused. Outside `ABSORB` it is refused. A
refusal changes nothing. That the scratch `v`, `m`, `(r, g)` and the model's own `draws` stay where there is room is not
R82's but the model's reading, DEDUCED (log entry 6). -/
def Obligations.AbsbTakesMessageByte : Prop :=
  ∀ (s : State) (x : Byte),
    (s.phase = .absorb → Memory.wf s.b = true → s.c.toNat < 128 →
      ∃ t, exec (.absb x) s = .next t ∧
        (∀ a, Memory.read t.b a = if a = s.c.toNat then x else Memory.read s.b a) ∧ t.c.toNat = s.c.toNat + 1 ∧
        t.responses = s.responses ++ [0x00000000] ∧ t.h = s.h ∧ t.t = s.t ∧ t.nn = s.nn ∧ t.kk = s.kk ∧
        t.phase = .absorb ∧ t.v = s.v ∧ t.m = s.m ∧ t.seqR = s.seqR ∧ t.seqG = s.seqG ∧ t.draws = s.draws ∧
        t.inputs = s.inputs) ∧
    (s.phase = .absorb → Memory.wf s.b = true → s.c.toNat = 128 → s.t.toNat + 128 ≤ 2 ^ 53 - 1 →
      ∃ t, exec (.absb x) s = .next t ∧ t.t.toNat = s.t.toNat + 128 ∧ t.h = F s.h s.b t.t false ∧
        (∀ a, Memory.read t.b a = if a = 0 then x else Memory.read s.b a) ∧ t.c.toNat = 1 ∧
        t.responses = s.responses ++ [0x00000000] ∧ t.nn = s.nn ∧ t.kk = s.kk ∧ t.phase = .absorb ∧
        t.inputs = s.inputs) ∧
    (s.phase = .absorb → s.c.toNat = 128 → s.t.toNat + 128 > 2 ^ 53 - 1 →
      exec (.absb x) s = .next { s with responses := s.responses ++ [0x04000000] }) ∧
    (s.phase ≠ .absorb → exec (.absb x) s = .next { s with responses := s.responses ++ [0x02000000] })

/-- R83: `FINAL`. In `ABSORB` within the length limit the buffer is zeroed from `c` on, the padded block
is compressed once with `f = 1` and the total count, `c` becomes 128 and the phase `DONE`, the rest stays. Above the limit,
or outside `ABSORB`, it is refused and nothing changes. -/
def Obligations.FinalClosesContext : Prop :=
  ∀ s : State,
    (s.phase = .absorb → s.t.toNat + s.c.toNat ≤ 2 ^ 53 - 1 →
      ∃ t, exec .final s = .next t ∧ (∀ a, Memory.read t.b a = if s.c.toNat ≤ a then 0 else Memory.read s.b a) ∧
        t.t.toNat = s.t.toNat + s.c.toNat ∧ t.h = F s.h t.b t.t true ∧ t.c.toNat = 128 ∧ t.phase = .done ∧
        t.responses = s.responses ++ [0x00000000] ∧ t.nn = s.nn ∧ t.kk = s.kk ∧ t.inputs = s.inputs) ∧
    (s.phase = .absorb → s.t.toNat + s.c.toNat > 2 ^ 53 - 1 →
      exec .final s = .next { s with responses := s.responses ++ [0x04000000] }) ∧
    (s.phase ≠ .absorb → exec .final s = .next { s with responses := s.responses ++ [0x02000000] })

/-- R84: `RDD`. In `DONE`, below `nn`, the response carries digest byte `idx`, bits `8·(idx mod 8) + 7 : 8·(idx mod 8)` of
`h[idx div 8]`; `idx ≥ nn`, or another phase, is refused. In every case nothing else changes. The premise `idx < 64`
follows from `idx < nn` in every state with the invariant (R26: `nn ≤ 64`). -/
def Obligations.RddReadsDigestByte : Prop :=
  ∀ (s : State) (idx : Byte),
    (s.phase = .done → idx.toNat < s.nn.toNat → (hi : idx.toNat < 64) →
      ∃ w : Word, exec (.rdd idx) s = .next { s with responses := s.responses ++ [w] } ∧
        w.toNat = s.h[idx.toNat / 8].toNat / 2 ^ (8 * (idx.toNat % 8)) % 256) ∧
    (s.phase = .done → s.nn.toNat ≤ idx.toNat →
      exec (.rdd idx) s = .next { s with responses := s.responses ++ [0x01000000] }) ∧
    (s.phase ≠ .done → exec (.rdd idx) s = .next { s with responses := s.responses ++ [0x02000000] })

/-- R85: `STAT`, in every phase: the response is the phase code at bits 9:8 and `c` at bits 7:0; nothing else changes. -/
def Obligations.StatReportsPhaseAndFill : Prop :=
  ∀ s : State, ∃ w : Word, exec .stat s = .next { s with responses := s.responses ++ [w] } ∧
    w.toNat = 256 * (match s.phase with | .idle => 0 | .keyload => 1 | .absorb => 2 | .done => 3) + s.c.toNat

/-- R16, R22, R23, R24, with the model's free values (log entries 4, 5, 6): a command that commits, which is a successful
`FINAL` or a successful `ABSB` that finds the buffer full, leaves in `v`, `m` and `(r, g)` the free values of a new draw;
any other command, refused ones included, leaves all scratch alone. -/
def Obligations.ScratchAfterCommand : Prop :=
  ∀ (i : Instr) (s t : State), exec i s = .next t →
    (Commits i s →
      t.v = Config.freeWork s.draws ∧ t.m = Config.freeMessage s.draws ∧ t.seqR = Config.freeRound s.draws ∧
        t.seqG = Config.freeCall s.draws ∧ t.draws = s.draws + 1) ∧
      (¬Commits i s → t.v = s.v ∧ t.m = s.m ∧ t.seqR = s.seqR ∧ t.seqG = s.seqG ∧ t.draws = s.draws)

/-- The model's choice for states no run reaches (log entry 10): where the rules would name a byte that does not exist
(R34: the buffer has addresses 0..127; R35: the digest window has indices 0..63) the step stops. `KEYB` with `c` above
127, `ABSB` with `c` above 128, `RDD` with an index above 63 below `nn`. -/
def Obligations.MissingByteStops : Prop :=
  ∀ (s : State) (x : Byte),
    (s.phase = .keyload → 128 ≤ s.c.toNat → exec (.keyb x) s = .fault .bufferAddress) ∧
      (s.phase = .absorb → 128 < s.c.toNat → exec (.absb x) s = .fault .bufferAddress) ∧
      (s.phase = .done → x.toNat < s.nn.toNat → 64 ≤ x.toNat → exec (.rdd x) s = .fault .digestIndex)

/-! ### Refusals, responses, whole-engine rules -/

/-- R108, R101 to R104: the status of the response to any word is the one of the first check that fails, in the order decode,
phase, operand, length; `OK` when all pass. -/
def Obligations.RefusalPriority : Prop :=
  ∀ (s t : State) (w : Word), runCommand w s = .next t →
    ∃ data : BitVec 16, t.responses = s.responses ++ [statusCode (wordStatus w s) ++ (0#8) ++ data]

/-- R100, R109: a command whose response has a status other than `OK` changes no state at all, and its data is 0. -/
def Obligations.RefusedChangesNothing : Prop :=
  ∀ (s t : State) (w r : Word), runCommand w s = .next t → t.responses = s.responses ++ [r] → rspStatus r ≠ 0 →
    t = { s with responses := s.responses ++ [r] } ∧ r.extractLsb' 0 24 = 0

/-- R70, R65, R71: every command produces exactly one response; its bits 23:16 are zero, its status is one of the five codes,
an error has data 0, and only `RDD` and `STAT` have data other than 0. -/
def Obligations.OneResponsePerCommand : Prop :=
  ∀ (s t : State) (w : Word), runCommand w s = .next t →
    ∃ r : Word, t.responses = s.responses ++ [r] ∧ r.extractLsb' 16 8 = 0 ∧ (rspStatus r).toNat ≤ 4 ∧
      (rspStatus r ≠ 0 → r.extractLsb' 0 16 = 0) ∧
      (r.extractLsb' 0 16 ≠ 0 → (∃ idx, decode w = .ok (.rdd idx)) ∨ decode w = .ok .stat)

/-- R89: the phase after a command, by the transition table when it succeeds, unchanged when it is refused. -/
def Obligations.PhaseTransitionTable : Prop :=
  ∀ (i : Instr) (s t : State), exec i s = .next t →
    t.phase = if commandStatus i s = .ok then phaseAfter i s else s.phase

/-- R21, R26 (iii), R86: between one context and the next the byte counter never decreases, and it changes only by the fill
count, at a commit. -/
def Obligations.ByteCounterGrowsAtCommits : Prop :=
  ∀ (s t : State) (w : Word), Inv s → runCommand w s = .next t →
    (StartsContext w ∧ t.t = 0) ∨ t.t = s.t ∨
      (t.t.toNat = s.t.toNat + s.c.toNat ∧ t.t.toNat ≤ 2 ^ 53 - 1 ∧
        ((∃ x, decode w = .ok (.absb x) ∧ s.c.toNat = 128) ∨ decode w = .ok .final))

/-- R18, R26 (ii): only a successful `INIT` writes `nn` and `kk`, from its fields A and B. -/
def Obligations.LengthsLatched : Prop :=
  ∀ (s t : State) (w : Word), runCommand w s = .next t →
    (∃ nn kk, decode w = .ok (.init nn kk) ∧ outLenLegal nn = true ∧ keyLenLegal kk = true ∧ t.nn = nn ∧ t.kk = kk) ∨
      (¬StartsContext w ∧ t.nn = s.nn ∧ t.kk = s.kk)

/-- R24, R63: no result depends on what the scratch held before: two states alike but for `v`, `m` and `(r, g)` step to
states alike but for them, with the same responses. -/
def Obligations.ScratchNeverRead : Prop :=
  ∀ s t : State, SameButScratch s t → OutcomesAgree SameButScratch (step s) (step t)

/-- R29, R15: before the context is finalised no response to a command shows anything of `h` or `b`. -/
def Obligations.ChainHiddenBeforeFinal : Prop :=
  ∀ (s t : State) (w : Word), SameButHidden s t → s.phase ≠ .done →
    OutcomesAgree SameButHidden (runCommand w s) (runCommand w t)

/-- R110, R106: the engine keeps no record of past responses: whatever was answered before, a command has the same effect and
the same response. -/
def Obligations.PastResponsesNeverRead : Prop :=
  ∀ (s : State) (w : Word) (past : List Word),
    OutcomesAgree (fun a b => ∃ r, a.responses = s.responses ++ [r] ∧ b = { a with responses := past ++ [r] })
      (runCommand w s) (runCommand w { s with responses := past })

/-- R127: in `DONE`, any commands but a successful `INIT` leave `h`, `nn` and the phase, and every digest byte reads the
same before and after them. -/
def Obligations.DigestStable : Prop :=
  ∀ (words : List Word) (s t : State), s.phase = .done → s.inputs = words.map .command →
    (∀ w ∈ words, ¬StartsContext w) → Host.Core.run core words.length s = .next t →
      t.h = s.h ∧ t.nn = s.nn ∧ t.phase = .done ∧
        ∀ idx : Byte, idx.toNat < s.nn.toNat → idx.toNat < 64 →
          ∃ w : Word, exec (.rdd idx) s = .next { s with responses := s.responses ++ [w] } ∧
            exec (.rdd idx) t = .next { t with responses := t.responses ++ [w] }

/-- R112: instances are independent: however the steps of several engines are interleaved, engine `k` ends where it ends when
it runs alone for as many steps as it was given. -/
def Obligations.InstancesIndependent : Prop :=
  ∀ (schedule : List Nat) (engines engines' : List State) (k : Nat) (s : State), engines[k]? = some s →
    runInstances engines schedule = .next engines' →
      ∃ t, engines'[k]? = some t ∧ Host.Core.run core (schedule.count k) s = .next t

/-- R104: once the buffer is full at the length limit the context cannot advance: no command but a successful `INIT` changes
`h`, `t`, `c` or the phase. -/
def Obligations.LengthLimitHoldsContext : Prop :=
  ∀ (s t : State) (w : Word), s.phase = .absorb → s.c.toNat = 128 → s.t.toNat + 128 > 2 ^ 53 - 1 →
    ¬StartsContext w → runCommand w s = .next t →
      t.h = s.h ∧ t.t = s.t ∧ t.c = s.c ∧ t.phase = .absorb

/-! ### The stream -/

/-- R80, R88, R26 (iv), (v): a legal `INIT` starts the stream: without a key an empty message has been absorbed, with a key
no key byte has arrived. -/
def Obligations.InitStartsStream : Prop :=
  ∀ (s : State) (nn kk : Byte), outLenLegal nn = true → kk.toNat ≤ 64 →
    ∃ t, exec (.init nn kk) s = .next t ∧ t.nn = nn ∧
      (kk.toNat = 0 → Absorbed t [] []) ∧ (0 < kk.toNat → KeyLoading t kk.toNat [])

/-- R81, R88: each key byte is taken in order, and with the last one the key block is the first input absorbed, without a
compression. -/
def Obligations.KeyBytesAbsorbed : Prop :=
  ∀ (s : State) (n : Nat) (part : List Byte) (x : Byte), KeyLoading s n part →
    ∃ t, exec (.keyb x) s = .next t ∧ t.nn = s.nn ∧
      (part.length + 1 < n → KeyLoading t n (part ++ [x])) ∧
      (part.length + 1 = n → Absorbed t (part ++ [x]) [])

/-- R82, R86, R26 (iv): each `ABSB` appends its byte to what has been absorbed, committing full blocks lazily, for every key
and message within the supported length. -/
def Obligations.AbsbExtendsMessage : Prop :=
  ∀ (s : State) (key msg : List Byte) (x : Byte), Absorbed s key msg →
    (inputBytes key (msg ++ [x])).length ≤ tMax →
      ∃ t, exec (.absb x) s = .next t ∧ t.nn = s.nn ∧ Absorbed t key (msg ++ [x])

/-- R90 (iv): the counter and the fill count after a legal `INIT`, its key bytes and `n` message bytes, run one step each from
any state, within the supported length: unkeyed with `n ≥ 1`, and keyed. -/
def Obligations.CountsAfterMessage : Prop :=
  ∀ (s : State) (nn : Byte) (key msg : List Byte), outLenLegal nn = true → key.length ≤ 64 →
    (inputBytes key msg).length ≤ tMax →
      ∃ t, Host.Core.run core (1 + key.length + msg.length)
          ({ s with
            inputs := (.init nn (BitVec.ofNat 8 key.length) :: (key.map .keyb ++ msg.map .absb)).map
              fun i => .command (encode i) } : State) = .next t ∧
        t.phase = .absorb ∧ t.inputs = [] ∧
        (key = [] → 1 ≤ msg.length →
          t.t.toNat = 128 * ((msg.length + 127) / 128 - 1) ∧ t.c.toNat = msg.length - t.t.toNat ∧
            1 ≤ t.c.toNat ∧ t.c.toNat ≤ 128) ∧
        (key ≠ [] →
          t.t.toNat = 128 * ((msg.length + 127) / 128) ∧ t.c.toNat = msg.length + 128 - t.t.toNat)

/-- R83, R128: `FINAL` leaves in `h` the final chaining value of the key and message absorbed, and in `t` their length. -/
def Obligations.FinalComputesDigest : Prop :=
  ∀ (s : State) (key msg : List Byte), Absorbed s key msg → (inputBytes key msg).length ≤ tMax →
    ∃ t, exec .final s = .next t ∧ t.phase = .done ∧ t.nn = s.nn ∧ t.h = finalChain s.nn key msg ∧
      t.t.toNat = (inputBytes key msg).length

/-! ### The host side and the ports -/

/-- R97, R128, R84, through the host of log entry 17: for every key, message and output length, from every state, the
commands of `HASH` return the digest of (`nn`, key, message); with the key and the output length absent, the unkeyed digest
of 64 bytes. -/
def Obligations.HashReturnsDigest : Prop :=
  (∀ (s : State) (msg key : List Byte) (nn : Byte), outLenLegal nn = true → key.length ≤ 64 →
    (inputBytes key msg).length ≤ tMax →
      ∃ t, hostHash s msg key nn = (t, .ok (digest nn key msg)) ∧ t.phase = .done) ∧
  (∀ (s : State) (msg : List Byte), msg.length ≤ tMax →
    ∃ t, hostHashDefault s (.bytes msg) none none = (t, .ok (digest 64 [] msg)) ∧ t.phase = .done)

/-- R92, R98: the length contract: whatever `HASH` returns has exactly the requested length, and whatever `HASHHEX` returns
has twice that many characters, 64 bytes being requested when no length is given, all from `0123456789abcdef`. -/
def Obligations.DigestLengthContract : Prop :=
  (∀ (s t : State) (msg key : List Byte) (nn : Byte) (ds : List Byte),
    hostHash s msg key nn = (t, .ok ds) → ds.length = nn.toNat) ∧
  (∀ (s t : State) (input : HostInput) (key : Option HostInput) (nn : Option Byte) (text : List Char),
    hostHashHex s input key nn = (t, .ok text) →
      text.length = 2 * (nn.getD 64).toNat ∧ ∀ ch ∈ text, ch ∈ "0123456789abcdef".toList)

/-- R96, R90 (i): several `UPDATE`s in a row are the same as one `UPDATE` of the concatenation. -/
def Obligations.UpdateChunking : Prop :=
  ∀ (s : State) (xs ys : List Byte), (send s (updateCommands xs)).error = none →
    (send s (updateCommands (xs ++ ys))).engine =
        (send (send s (updateCommands xs)).engine (updateCommands ys)).engine ∧
      (send s (updateCommands (xs ++ ys))).error =
        (send (send s (updateCommands xs)).engine (updateCommands ys)).error

/-- R98: the hexadecimal rendering: `2n` characters from `0123456789abcdef`, character `2j` the digit of `d[j] div 16`,
character `2j + 1` the digit of `d[j] mod 16`. -/
def Obligations.HexRendering : Prop :=
  ∀ ds : List Byte,
    (hexText ds).length = 2 * ds.length ∧ (∀ ch ∈ hexText ds, ch ∈ "0123456789abcdef".toList) ∧
      ∀ (j : Nat) (hj : j < ds.length),
        (hexText ds)[2 * j]? = some ("0123456789abcdef".toList.getD (ds[j].toNat / 16) '0') ∧
          (hexText ds)[2 * j + 1]? = some ("0123456789abcdef".toList.getD (ds[j].toNat % 16) '0')

/-- R99, R105: text maps to one byte per character when every code point is at most 0xFF, and is refused otherwise; a value
that is neither text nor bytes is refused; a refused input or key leaves the engine as it was, with `InvalidInput`, when the
other argument is empty. -/
def Obligations.TextToBytes : Prop :=
  (∀ text : List Char,
    ((∀ ch ∈ text, ch.toNat ≤ 0xFF) → ∃ bs, textBytes text = .ok bs ∧ bs.map BitVec.toNat = text.map Char.toNat) ∧
      ((∃ ch ∈ text, 0xFF < ch.toNat) → textBytes text = .error .invalidInput)) ∧
  HostInput.normalize .other = .error .invalidInput ∧
  ∀ (s : State) (x : HostInput) (nn : Option Byte), x.normalize = .error .invalidInput →
    hostHashDefault s x none nn = (s, .error .invalidInput) ∧
      hostHashDefault s (.bytes []) (some x) nn = (s, .error .invalidInput)

/-- R122, R120, with the model's port (log entry 13: the latency is a free value, and the engine is ready in the cycle after
the response): a command accepted at the port by a ready engine completes: with no reset, whatever else the host drives,
`cmd_ready` is low and no response appears until the response cycle, in which the response of `runCommand` appears; then
the engine is ready again with the state `runCommand` gives. -/
def Obligations.PortCompletesCommand : Prop :=
  ∀ (p : PortState) (w : Word) (t : State) (noise : List PortIn) (last : PortIn),
    p.busy = none → runCommand w p.engine = .next t → noise.length = Config.extraCycles w p.accepted →
    (∀ i ∈ noise, i.rst = false) → last.rst = false →
      portRun p (⟨false, true, w⟩ :: noise ++ [last]) =
        .next (⟨t, none, p.accepted + 1⟩,
          ⟨true, none⟩ :: List.replicate noise.length ⟨false, none⟩ ++ [⟨false, t.responses.getLast?⟩])

/-- R116, R117, R120, with the model's port (log entry 13: the port is not ready in a reset cycle, and reset in the response
cycle suppresses the response): reset at a rising edge, whatever is in flight, produces no response and accepts no word in
that cycle, and leaves the engine with the reset state and ready in the next cycle, unless that is a reset cycle too. -/
def Obligations.PortResetAbandons : Prop :=
  ∀ (p : PortState) (i next : PortIn), i.rst = true →
    portOut p i = ⟨false, none⟩ ∧
      ∃ q, portClock p i = .next q ∧ q.busy = none ∧ q.accepted = p.accepted ∧ q.engine = resetEvent p.engine ∧
        (next.rst = false → portOut q next = ⟨true, none⟩)
end

