-- ==== Sys2Proof/Laws/Compression.lean ====
section
/-! SUPPORT. The mixing function one step at a time: a name for each of the eight steps of `G` (R57), what each does to every
lane, and the rotates as Lean's own. -/

namespace Sys2Proof.Machine

/-- `rotr64` at a fixed amount is the rotate of `BitVec` (R44). -/
theorem rotr64_eq_rotateRight (x : Lane) {n : Nat} (h : n < 64) : rotr64 x n = x.rotateRight n := by
  rw [rotr64, BitVec.rotateRight_def, Nat.mod_eq_of_lt h]

theorem lane_set_self (v : Vector Lane 16) (i : Fin 16) (x : Lane) : (v.set i x)[i] = x := Vector.getElem_set_self _

theorem lane_set_ne (v : Vector Lane 16) {i j : Fin 16} (x : Lane) (h : i ≠ j) : (v.set i x)[j] = v[j] :=
  Vector.getElem_set_ne _ _ fun k => h (Fin.ext k)

/-- Steps 1 and 5 of `G`. -/
def stepA (q : Quad) (x : Lane) (v : Vector Lane 16) : Vector Lane 16 :=
  v.set q.ia (add64 (add64 v[q.ia] v[q.ib]) x)

/-- Steps 2 and 6 of `G`, with their rotate. -/
def stepD (q : Quad) (rot : Lane → Lane) (v : Vector Lane 16) : Vector Lane 16 :=
  v.set q.id (rot (xor64 v[q.id] v[q.ia]))

/-- Steps 3 and 7 of `G`. -/
def stepC (q : Quad) (v : Vector Lane 16) : Vector Lane 16 := v.set q.ic (add64 v[q.ic] v[q.id])

/-- Steps 4 and 8 of `G`, with their rotate. -/
def stepB (q : Quad) (rot : Lane → Lane) (v : Vector Lane 16) : Vector Lane 16 :=
  v.set q.ib (rot (xor64 v[q.ib] v[q.ic]))

/-- `G` is its eight steps in order (R57). -/
theorem G_eq_steps (q : Quad) (x y : Lane) (v : Vector Lane 16) :
    G q x y v =
      stepB q rotr64By63 (stepC q (stepD q rotr64By16 (stepA q y
        (stepB q rotr64By24 (stepC q (stepD q rotr64By32 (stepA q x v))))))) := rfl

section Steps
variable (q : Quad) (x : Lane) (rot : Lane → Lane) (v : Vector Lane 16)

theorem stepA_self : (stepA q x v)[q.ia] = add64 (add64 v[q.ia] v[q.ib]) x := lane_set_self _ _ _
theorem stepA_ne {i : Fin 16} (h : q.ia ≠ i) : (stepA q x v)[i] = v[i] := lane_set_ne _ _ h
theorem stepD_self : (stepD q rot v)[q.id] = rot (xor64 v[q.id] v[q.ia]) := lane_set_self _ _ _
theorem stepD_ne {i : Fin 16} (h : q.id ≠ i) : (stepD q rot v)[i] = v[i] := lane_set_ne _ _ h
theorem stepC_self : (stepC q v)[q.ic] = add64 v[q.ic] v[q.id] := lane_set_self _ _ _
theorem stepC_ne {i : Fin 16} (h : q.ic ≠ i) : (stepC q v)[i] = v[i] := lane_set_ne _ _ h
theorem stepB_self : (stepB q rot v)[q.ib] = rot (xor64 v[q.ib] v[q.ic]) := lane_set_self _ _ _
theorem stepB_ne {i : Fin 16} (h : q.ib ≠ i) : (stepB q rot v)[i] = v[i] := lane_set_ne _ _ h

end Steps

/-- A lane outside the quadruple keeps its value through every step of `G`. -/
theorem G_other {q : Quad} {i : Fin 16} (ha : q.ia ≠ i) (hb : q.ib ≠ i) (hc : q.ic ≠ i) (hd : q.id ≠ i) (x y : Lane)
    (v : Vector Lane 16) : (G q x y v)[i] = v[i] := by
  rw [G_eq_steps, stepB_ne _ _ _ hb, stepC_ne _ _ hc, stepD_ne _ _ _ hd, stepA_ne _ _ _ ha, stepB_ne _ _ _ hb,
    stepC_ne _ _ hc, stepD_ne _ _ _ hd, stepA_ne _ _ _ ha]

/-- The twelve rounds and the feed-forward, over message words already decoded. -/
theorem F_eq_compress (h : Vector Lane 8) (b : List Host.Cell) (t : Lane) (f : Bool) :
    F h b t f = compress h (loadM b) t f := rfl

end Sys2Proof.Machine
end

