-- ==== Sys2Proof/Laws/Decode.lean ====
section
/-! SUPPORT. The command word as four fields, and what a row of the opcode map selects in terms of them. -/

namespace Sys2Proof

/-- A word is its four fields (R65). -/
theorem word_eq_fields (w : Word) : fieldOp w ++ fieldRsv w ++ fieldB w ++ fieldA w = w := by
  apply BitVec.eq_of_getLsbD_eq
  intro i hi
  simp only [BitVec.getLsbD_append, fieldOp, fieldRsv, fieldB, fieldA, BitVec.getLsbD_extractLsb']
  by_cases h1 : i < 8
  · simp [h1]
  · by_cases h2 : i - 8 < 8
    · simp [h1, h2, show 8 + (i - 8) = i by omega]
    · by_cases h3 : i - 8 - 8 < 8
      · simp [h1, h2, h3, show 16 + (i - 8 - 8) = i by omega]
      · simp [h1, h2, h3, show 24 + (i - 8 - 8 - 8) = i by omega]
        intro h; omega

@[simp] theorem fieldA_fields (op r B A : Byte) : fieldA (op ++ r ++ B ++ A) = A := by
  apply BitVec.eq_of_getLsbD_eq
  intro i hi
  simp only [BitVec.getLsbD_append, fieldA, BitVec.getLsbD_extractLsb']
  simp [hi]

@[simp] theorem fieldB_fields (op r B A : Byte) : fieldB (op ++ r ++ B ++ A) = B := by
  apply BitVec.eq_of_getLsbD_eq
  intro i hi
  simp only [BitVec.getLsbD_append, fieldB, BitVec.getLsbD_extractLsb']
  simp [hi]

@[simp] theorem fieldRsv_fields (op r B A : Byte) : fieldRsv (op ++ r ++ B ++ A) = r := by
  apply BitVec.eq_of_getLsbD_eq
  intro i hi
  simp only [BitVec.getLsbD_append, fieldRsv, BitVec.getLsbD_extractLsb']
  simp [hi, show ¬16 + i < 8 by omega, show ¬16 + i - 8 < 8 by omega, show 16 + i - 8 - 8 = i by omega]

@[simp] theorem fieldOp_fields (op r B A : Byte) : fieldOp (op ++ r ++ B ++ A) = op := by
  apply BitVec.eq_of_getLsbD_eq
  intro i hi
  simp only [BitVec.getLsbD_append, fieldOp, BitVec.getLsbD_extractLsb']
  simp [hi, show ¬24 + i < 8 by omega, show ¬24 + i - 8 < 8 by omega, show ¬24 + i - 8 - 8 < 8 by omega,
    show 24 + i - 8 - 8 - 8 = i by omega]

/-- Two words are equal exactly when their fields are. -/
theorem fields_inj {a b c d a' b' c' d' : Byte} :
    a ++ b ++ c ++ d = a' ++ b' ++ c' ++ d' ↔ a = a' ∧ b = b' ∧ c = c' ∧ d = d' := by
  constructor
  · intro h
    exact ⟨by simpa using congrArg fieldOp h, by simpa using congrArg fieldRsv h,
      by simpa using congrArg fieldB h, by simpa using congrArg fieldA h⟩
  · rintro ⟨rfl, rfl, rfl, rfl⟩
    rfl

/-- Masking a word masks each field. -/
theorem and_fields (a b c d a' b' c' d' : Byte) :
    (a ++ b ++ c ++ d) &&& (a' ++ b' ++ c' ++ d') = (a &&& a') ++ (b &&& b') ++ (c &&& c') ++ (d &&& d') := by
  apply BitVec.eq_of_getLsbD_eq
  intro i hi
  simp only [BitVec.getLsbD_and, BitVec.getLsbD_append]
  by_cases h1 : i < 8
  · simp [h1]
  · by_cases h2 : i - 8 < 8
    · simp [h1, h2]
    · by_cases h3 : i - 8 - 8 < 8 <;> simp [h1, h2, h3]

/-- The mask of `INIT`: `op` and `rsv` are fixed. -/
theorem mask_two_fields (op r B A p : Byte) :
    ((op ++ r ++ B ++ A) &&& (0xFFFF0000 : Word) = p ++ (0#8) ++ (0#8) ++ (0#8)) ↔ op = p ∧ r = 0 := by
  rw [show (0xFFFF0000 : Word) = (0xFF#8) ++ (0xFF#8) ++ (0x00#8) ++ (0x00#8) by decide, and_fields, fields_inj,
    show (0xFF#8) = BitVec.allOnes 8 by decide, BitVec.and_allOnes, BitVec.and_allOnes, BitVec.and_zero, BitVec.and_zero]
  simp

/-- The mask of `KEYB`, `ABSB`, `RDD`: `op`, `rsv` and `B` are fixed. -/
theorem mask_three_fields (op r B A p : Byte) :
    ((op ++ r ++ B ++ A) &&& (0xFFFFFF00 : Word) = p ++ (0#8) ++ (0#8) ++ (0#8)) ↔ op = p ∧ r = 0 ∧ B = 0 := by
  rw [show (0xFFFFFF00 : Word) = (0xFF#8) ++ (0xFF#8) ++ (0xFF#8) ++ (0x00#8) by decide, and_fields, fields_inj,
    show (0xFF#8) = BitVec.allOnes 8 by decide, BitVec.and_allOnes, BitVec.and_allOnes, BitVec.and_allOnes, BitVec.and_zero]
  simp

/-- The mask of `FINAL`, `STAT`: every field is fixed. -/
theorem mask_four_fields (op r B A p : Byte) :
    ((op ++ r ++ B ++ A) &&& (0xFFFFFFFF : Word) = p ++ (0#8) ++ (0#8) ++ (0#8)) ↔ op = p ∧ r = 0 ∧ B = 0 ∧ A = 0 := by
  rw [show (0xFFFFFFFF : Word) = (0xFF#8) ++ (0xFF#8) ++ (0xFF#8) ++ (0xFF#8) by decide, and_fields, fields_inj,
    show (0xFF#8) = BitVec.allOnes 8 by decide, BitVec.and_allOnes, BitVec.and_allOnes, BitVec.and_allOnes, BitVec.and_allOnes]
  simp

/-- The decoder on a word given by its fields, opcode by opcode (R67, R68). -/
theorem decode_fields (op r B A : Byte) :
    decode (op ++ r ++ B ++ A) =
      if op = 0x01 then if r = 0 then .ok (.init A B) else .illegal (whyIllegal (op ++ r ++ B ++ A))
      else if op = 0x02 then if r = 0 ∧ B = 0 then .ok (.keyb A) else .illegal (whyIllegal (op ++ r ++ B ++ A))
      else if op = 0x03 then if r = 0 ∧ B = 0 then .ok (.absb A) else .illegal (whyIllegal (op ++ r ++ B ++ A))
      else if op = 0x04 then
        if r = 0 ∧ B = 0 ∧ A = 0 then .ok .final else .illegal (whyIllegal (op ++ r ++ B ++ A))
      else if op = 0x05 then if r = 0 ∧ B = 0 then .ok (.rdd A) else .illegal (whyIllegal (op ++ r ++ B ++ A))
      else if op = 0x06 then
        if r = 0 ∧ B = 0 ∧ A = 0 then .ok .stat else .illegal (whyIllegal (op ++ r ++ B ++ A))
      else .illegal .opcode := by
  have two := fun p : Byte => mask_two_fields op r B A p
  have three := fun p : Byte => mask_three_fields op r B A p
  have four := fun p : Byte => mask_four_fields op r B A p
  rw [decode, fieldOp_fields, fieldA_fields, fieldB_fields]
  by_cases h1 : op = 0x01
  · subst h1
    have := two 0x01
    by_cases hr : r = 0 <;> simp_all [opcodeMap, OpRow.selects, buildInstr]
  by_cases h2 : op = 0x02
  · subst h2
    have := three 0x02
    by_cases hr : r = 0 ∧ B = 0 <;> simp_all [opcodeMap, OpRow.selects, buildInstr]
  by_cases h3 : op = 0x03
  · subst h3
    have := three 0x03
    by_cases hr : r = 0 ∧ B = 0 <;> simp_all [opcodeMap, OpRow.selects, buildInstr]
  by_cases h4 : op = 0x04
  · subst h4
    have := four 0x04
    by_cases hr : r = 0 ∧ B = 0 ∧ A = 0 <;> simp_all [opcodeMap, OpRow.selects, buildInstr]
  by_cases h5 : op = 0x05
  · subst h5
    have := three 0x05
    by_cases hr : r = 0 ∧ B = 0 <;> simp_all [opcodeMap, OpRow.selects, buildInstr]
  by_cases h6 : op = 0x06
  · subst h6
    have := four 0x06
    by_cases hr : r = 0 ∧ B = 0 ∧ A = 0 <;> simp_all [opcodeMap, OpRow.selects, buildInstr]
  simp [opcodeMap, eq_comm (a := op)] at *
  simp [*]

end Sys2Proof
end

