-- ==== Sys2Proof/Laws/Digest.lean ====
section
/-! SUPPORT. How the byte-string functions of Machine/Digest.lean meet the buffer, and how the chain grows. -/

namespace Sys2Proof.Machine

/-- Two blocks with the same 128 bytes, counting missing ones as zero, give the same message words. -/
theorem blockWords_ext {p q : List Byte} (h : ∀ a, a < 128 → p.getD a 0 = q.getD a 0) : blockWords p = blockWords q := by
  unfold blockWords
  congr 1
  funext i
  rw [h _ (by omega), h _ (by omega), h _ (by omega), h _ (by omega), h _ (by omega), h _ (by omega), h _ (by omega),
    h _ (by omega)]

/-- A buffer that holds a block, zero-padded, gives that block's message words. -/
theorem loadM_eq_blockWords {b : List Host.Cell} {p : List Byte} (h : ∀ a, a < 128 → Memory.read b a = p.getD a 0) :
    loadM b = blockWords p := by
  unfold blockWords loadM
  congr 1
  funext i
  unfold memRead8 feederAddress
  rw [h _ (by omega), h _ (by omega), h _ (by omega), h _ (by omega), h _ (by omega), h _ (by omega), h _ (by omega),
    h _ (by omega)]

/-- The chain over whole blocks does not see what follows them. -/
theorem chainAfter_append (h : Vector Lane 8) (d e : List Byte) (k : Nat) (hk : 128 * k ≤ d.length) :
    chainAfter h (d ++ e) k = chainAfter h d k := by
  induction k with
  | zero => rfl
  | succ k ih =>
    rw [chainAfter, chainAfter, ih (by omega),
      List.drop_append_of_le_length (by rw [blockBytes]; omega),
      List.take_append_of_le_length (by rw [List.length_drop, blockBytes]; omega)]

theorem inputBytes_snoc (key msg : List Byte) (x : Byte) : inputBytes key (msg ++ [x]) = inputBytes key msg ++ [x] :=
  (List.append_assoc _ _ _).symm

theorem inputBytes_nokey (msg : List Byte) : inputBytes [] msg = msg := rfl

/-- The key block counts as 128 bytes (R88). -/
theorem inputBytes_length (key msg : List Byte) (h : key.length ≤ 64) :
    (inputBytes key msg).length = (if key = [] then 0 else 128) + msg.length := by
  rw [inputBytes, keyBlock, List.length_append]
  split
  · rfl
  · rw [List.length_append, List.length_replicate, blockBytes]
    omega

end Sys2Proof.Machine
end

