-- ==== Sys2Proof/Laws/Memory.lean ====
section
/-! SUPPORT. The laws of the block buffer as a memory: read after write, and that every operation keeps the canonical
form. -/

namespace Sys2Proof.Machine

theorem Memory.wfFrom_cons {lo k : Nat} {x : Byte} {rest : List Host.Cell} :
    Memory.wfFrom lo ((k, x) :: rest) = true ↔
      lo ≤ k ∧ k < blockBytes ∧ x ≠ Memory.unlisted ∧ Memory.wfFrom (k + 1) rest = true := by
  simp [Memory.wfFrom, and_assoc]

theorem Memory.wfFrom_mono {lo hi : Nat} {b : List Host.Cell} (hle : lo ≤ hi) (h : Memory.wfFrom hi b = true) :
    Memory.wfFrom lo b = true := by
  cases b with
  | nil => rfl
  | cons e rest =>
    obtain ⟨k, x⟩ := e
    rw [Memory.wfFrom_cons] at h ⊢
    exact ⟨hle.trans h.1, h.2⟩

/-- Below the lowest listed address every byte reads as unlisted. -/
theorem Memory.read_below {lo : Nat} {b : List Host.Cell} (h : Memory.wfFrom lo b = true) {a : Nat} (ha : a < lo) :
    Memory.read b a = Memory.unlisted := by
  induction b generalizing lo with
  | nil => rfl
  | cons e rest ih =>
    obtain ⟨k, x⟩ := e
    rw [Memory.wfFrom_cons] at h
    rw [Memory.read, if_neg (by omega)]
    exact ih h.2.2.2 (by omega)

/-- At and above address 128 every byte of a canonical buffer reads as unlisted. -/
theorem Memory.read_above {lo : Nat} {b : List Host.Cell} (h : Memory.wfFrom lo b = true) {a : Nat}
    (ha : blockBytes ≤ a) : Memory.read b a = Memory.unlisted := by
  induction b generalizing lo with
  | nil => rfl
  | cons e rest ih =>
    obtain ⟨k, x⟩ := e
    rw [Memory.wfFrom_cons] at h
    rw [Memory.read, if_neg (by omega)]
    exact ih h.2.2.2

/-- Read after write, at the written address and at every other. -/
theorem Memory.read_write {lo : Nat} {b : List Host.Cell} (h : Memory.wfFrom lo b = true) (a : Nat) (x : Byte) (a' : Nat) :
    Memory.read (Memory.write b a x) a' = if a' = a then x else Memory.read b a' := by
  induction b generalizing lo with
  | nil => by_cases hx : x = Memory.unlisted <;> simp [Memory.write, Memory.read, hx, eq_comm]
  | cons e rest ih =>
    obtain ⟨k, y⟩ := e
    rw [Memory.wfFrom_cons] at h
    have below := fun (j : Nat) (hj : j < k + 1) => Memory.read_below h.2.2.2 hj
    rcases Nat.lt_trichotomy k a with hk | hk | hk
    · rw [Memory.write, if_pos hk, Memory.read, ih h.2.2.2, Memory.read]
      by_cases h1 : a' = a
      · rw [if_pos h1, if_neg (by omega), if_pos h1]
      · rw [if_neg h1, if_neg h1]
    · subst hk
      by_cases hx : x = Memory.unlisted
      · rw [Memory.write, if_neg (Nat.lt_irrefl k), if_pos rfl, if_pos hx, Memory.read]
        by_cases h1 : a' = k
        · rw [if_pos h1, below a' (by omega), hx]
        · rw [if_neg h1, if_neg (Ne.symm h1)]
      · rw [Memory.write, if_neg (Nat.lt_irrefl k), if_pos rfl, if_neg hx, Memory.read, Memory.read]
        by_cases h1 : a' = k
        · rw [if_pos h1, if_pos h1.symm]
        · rw [if_neg h1, if_neg (Ne.symm h1), if_neg (Ne.symm h1)]
    · by_cases hx : x = Memory.unlisted
      · rw [Memory.write, if_neg (by omega), if_neg (by omega), if_pos hx]
        by_cases h1 : a' = a
        · rw [if_pos h1, Memory.read, if_neg (by omega), below a' (by omega), hx]
        · rw [if_neg h1]
      · rw [Memory.write, if_neg (by omega), if_neg (by omega), if_neg hx, Memory.read]
        by_cases h1 : a' = a
        · rw [if_pos h1, if_pos h1.symm]
        · rw [if_neg h1, if_neg (Ne.symm h1)]

/-- A write inside the buffer keeps the canonical form. -/
theorem Memory.write_wfFrom {lo : Nat} {b : List Host.Cell} (h : Memory.wfFrom lo b = true) {a : Nat} (x : Byte)
    (hlo : lo ≤ a) (ha : a < blockBytes) : Memory.wfFrom lo (Memory.write b a x) = true := by
  induction b generalizing lo with
  | nil => by_cases hx : x = Memory.unlisted <;> simp [Memory.write, Memory.wfFrom, hx, hlo, ha]
  | cons e rest ih =>
    obtain ⟨k, y⟩ := e
    have h0 := h
    rw [Memory.wfFrom_cons] at h
    rw [Memory.write]
    split
    · rw [Memory.wfFrom_cons]
      exact ⟨h.1, h.2.1, h.2.2.1, ih h.2.2.2 (by omega)⟩
    · split
      · split
        · exact Memory.wfFrom_mono (by omega) h.2.2.2
        · rw [Memory.wfFrom_cons]
          rename_i hk hx
          exact ⟨hlo, ha, hx, hk ▸ h.2.2.2⟩
      · split
        · exact h0
        · rw [Memory.wfFrom_cons, Memory.wfFrom_cons]
          rename_i hx
          exact ⟨hlo, ha, hx, by omega, h.2.1, h.2.2.1, h.2.2.2⟩

theorem Memory.write_wf {b : List Host.Cell} (h : Memory.wf b = true) {a : Nat} (x : Byte) (ha : a < blockBytes) :
    Memory.wf (Memory.write b a x) = true :=
  Memory.write_wfFrom h x (Nat.zero_le a) ha

/-- Equal memories are equal data: two canonical buffers that read alike are the same list. -/
theorem Memory.wfFrom_ext {lo : Nat} {b b' : List Host.Cell} (h : Memory.wfFrom lo b = true)
    (h' : Memory.wfFrom lo b' = true) (same : ∀ a, Memory.read b a = Memory.read b' a) : b = b' := by
  induction b generalizing lo b' with
  | nil =>
    cases b' with
    | nil => rfl
    | cons e rest =>
      obtain ⟨k, x⟩ := e
      rw [Memory.wfFrom_cons] at h'
      have := same k
      simp only [Memory.read, if_true] at this
      exact absurd this.symm h'.2.2.1
  | cons e rest ih =>
    obtain ⟨k, x⟩ := e
    rw [Memory.wfFrom_cons] at h
    cases b' with
    | nil =>
      have := same k
      simp only [Memory.read, if_true] at this
      exact absurd this h.2.2.1
    | cons e' rest' =>
      obtain ⟨k', x'⟩ := e'
      rw [Memory.wfFrom_cons] at h'
      have hk : k = k' := by
        rcases Nat.lt_trichotomy k k' with hlt | heq | hgt
        · have := same k
          rw [Memory.read, if_pos rfl, Memory.read, if_neg (by omega), Memory.read_below h'.2.2.2 (by omega)] at this
          exact absurd this h.2.2.1
        · exact heq
        · have := same k'
          rw [Memory.read, if_neg (by omega), Memory.read_below h.2.2.2 (by omega), Memory.read, if_pos rfl] at this
          exact absurd this.symm h'.2.2.1
      subst hk
      have hx : x = x' := by
        have := same k
        simpa only [Memory.read, if_true] using this
      subst hx
      congr 1
      refine ih h.2.2.2 h'.2.2.2 fun a => ?_
      by_cases ha : k = a
      · subst ha
        rw [Memory.read_below h.2.2.2 (by omega), Memory.read_below h'.2.2.2 (by omega)]
      · have := same a
        rwa [Memory.read, if_neg ha, Memory.read, if_neg ha] at this

/-- Zeroing from `lo` on keeps the canonical form. -/
theorem Memory.zeroFrom_wfFrom {k : Nat} {b : List Host.Cell} (h : Memory.wfFrom k b = true) (lo : Nat) :
    Memory.wfFrom k (Memory.zeroFrom b lo) = true := by
  induction b generalizing k with
  | nil => exact h
  | cons e rest ih =>
    obtain ⟨j, x⟩ := e
    rw [Memory.wfFrom_cons] at h
    by_cases hj : j < lo
    · rw [Memory.zeroFrom, List.filter_cons_of_pos (by simpa using hj), Memory.wfFrom_cons]
      exact ⟨h.1, h.2.1, h.2.2.1, ih h.2.2.2⟩
    · rw [Memory.zeroFrom, List.filter_cons_of_neg (by simpa using hj)]
      exact ih (Memory.wfFrom_mono (by omega) h.2.2.2)

theorem Memory.zeroFrom_wf {b : List Host.Cell} (h : Memory.wf b = true) (lo : Nat) :
    Memory.wf (Memory.zeroFrom b lo) = true :=
  Memory.zeroFrom_wfFrom h lo

/-- The clear and pad stores: zero from `lo` on, every other byte as before. -/
theorem Memory.read_zeroFrom (b : List Host.Cell) (lo a : Nat) :
    Memory.read (Memory.zeroFrom b lo) a = if lo ≤ a then 0 else Memory.read b a := by
  induction b with
  | nil => simp [Memory.zeroFrom, Memory.read, Memory.unlisted]
  | cons e rest ih =>
    obtain ⟨j, x⟩ := e
    by_cases hj : j < lo
    · rw [Memory.zeroFrom, List.filter_cons_of_pos (by simpa using hj), Memory.read, ← Memory.zeroFrom, ih, Memory.read]
      by_cases ha : j = a
      · rw [if_pos ha, if_neg (by omega), if_pos ha]
      · rw [if_neg ha, if_neg ha]
    · rw [Memory.zeroFrom, List.filter_cons_of_neg (by simpa using hj), ← Memory.zeroFrom, ih, Memory.read]
      by_cases ha : lo ≤ a
      · rw [if_pos ha, if_pos ha]
      · rw [if_neg ha, if_neg ha, if_neg (by omega)]

/-- Clearing the whole buffer leaves nothing listed. -/
theorem Memory.zeroFrom_zero (b : List Host.Cell) : Memory.zeroFrom b 0 = [] := by
  simp [Memory.zeroFrom]

/-- A list of zero writes: the canonical form, and which byte each address reads as. -/
theorem Memory.zeroWrites_spec (as : List Nat) {b : List Host.Cell} (h : Memory.wf b = true)
    (has : ∀ a ∈ as, a < blockBytes) :
    Memory.wf (as.foldl (fun b a => Memory.write b a 0) b) = true ∧
      ∀ a, Memory.read (as.foldl (fun b a => Memory.write b a 0) b) a = if a ∈ as then 0 else Memory.read b a := by
  induction as generalizing b with
  | nil => simp [h]
  | cons k rest ih =>
    obtain ⟨wf', read'⟩ := ih (Memory.write_wf h 0 (has k (by simp))) fun a ha => has a (by simp [ha])
    refine ⟨wf', fun a => ?_⟩
    rw [List.foldl_cons, read', Memory.read_write h]
    by_cases h1 : a ∈ rest
    · simp [h1]
    · by_cases h2 : a = k <;> simp [h1, h2]

/-- R34, R83: the zero store from `lo` on is the loop `for a in lo..127: MemWrite(a, 1, 0)`. -/
theorem Memory.zeroFrom_eq_writes {b : List Host.Cell} (h : Memory.wf b = true) (lo : Nat) :
    Memory.zeroFrom b lo =
      ((List.range blockBytes).filter fun a => decide (lo ≤ a)).foldl (fun b a => Memory.write b a 0) b := by
  obtain ⟨wf', read'⟩ := Memory.zeroWrites_spec ((List.range blockBytes).filter fun a => decide (lo ≤ a)) h
    fun a ha => List.mem_range.mp (List.mem_of_mem_filter ha)
  refine Memory.wfFrom_ext (lo := 0) (Memory.zeroFrom_wf h lo) wf' fun a => ?_
  rw [Memory.read_zeroFrom, read']
  by_cases ha : lo ≤ a
  · by_cases hb : a < blockBytes
    · simp [ha, hb]
    · have : Memory.read b a = 0 := Memory.read_above h (by omega)
      simp [ha, hb, this]
  · simp [ha]

theorem Memory.bytesFrom_wfFrom (f : Nat → Byte) (a n : Nat) (h : a + n ≤ blockBytes) :
    Memory.wfFrom a (Memory.bytesFrom f a n) = true := by
  induction n generalizing a with
  | zero => rfl
  | succ n ih =>
    rw [Memory.bytesFrom]
    split
    · exact Memory.wfFrom_mono (Nat.le_succ a) (ih (a + 1) (by omega))
    · rename_i hx
      rw [Memory.wfFrom_cons]
      exact ⟨Nat.le_refl a, by omega, hx, ih (a + 1) (by omega)⟩

theorem Memory.ofBytes_wf (f : Nat → Byte) : Memory.wf (Memory.ofBytes f) = true :=
  Memory.bytesFrom_wfFrom f 0 blockBytes (Nat.le_refl _)

theorem Memory.read_bytesFrom (f : Nat → Byte) (a n k : Nat) (h : a + n ≤ blockBytes) :
    Memory.read (Memory.bytesFrom f a n) k = if a ≤ k ∧ k < a + n then f k else Memory.unlisted := by
  induction n generalizing a with
  | zero => rw [if_neg (by omega)]; rfl
  | succ n ih =>
    rw [Memory.bytesFrom]
    by_cases hk : a = k
    · subst hk
      rw [if_pos (⟨Nat.le_refl a, by omega⟩ : a ≤ a ∧ a < a + (n + 1))]
      split
      · rename_i hx
        rw [ih (a + 1) (by omega), if_neg (by omega), hx]
      · rw [Memory.read, if_pos rfl]
    · have same : (a ≤ k ∧ k < a + (n + 1)) = (a + 1 ≤ k ∧ k < a + 1 + n) := by apply propext; omega
      split
      · rw [ih (a + 1) (by omega)]
        simp only [same]
      · rw [Memory.read, if_neg hk, ih (a + 1) (by omega)]
        simp only [same]

theorem Memory.read_ofBytes (f : Nat → Byte) {a : Nat} (ha : a < blockBytes) :
    Memory.read (Memory.ofBytes f) a = f a := by
  rw [Memory.ofBytes, Memory.read_bytesFrom f 0 blockBytes a (by omega), if_pos (by omega)]

end Sys2Proof.Machine
end

