-- ==== Sys2Proof/Laws/State.lean ====
section
/-! SUPPORT. One lemma per field per named update of the state, true by rfl, so that no proof unfolds a record update. -/

namespace Sys2Proof.Machine

section Emit
variable (s : State) (w : Word)

@[simp] theorem emit_h : (s.emit w).h = s.h := rfl
@[simp] theorem emit_b : (s.emit w).b = s.b := rfl
@[simp] theorem emit_c : (s.emit w).c = s.c := rfl
@[simp] theorem emit_t : (s.emit w).t = s.t := rfl
@[simp] theorem emit_nn : (s.emit w).nn = s.nn := rfl
@[simp] theorem emit_kk : (s.emit w).kk = s.kk := rfl
@[simp] theorem emit_phase : (s.emit w).phase = s.phase := rfl
@[simp] theorem emit_v : (s.emit w).v = s.v := rfl
@[simp] theorem emit_m : (s.emit w).m = s.m := rfl
@[simp] theorem emit_seqR : (s.emit w).seqR = s.seqR := rfl
@[simp] theorem emit_seqG : (s.emit w).seqG = s.seqG := rfl
@[simp] theorem emit_draws : (s.emit w).draws = s.draws := rfl
@[simp] theorem emit_inputs : (s.emit w).inputs = s.inputs := rfl
@[simp] theorem emit_responses : (s.emit w).responses = s.responses ++ [w] := rfl

end Emit

section FreeScratch
variable (s : State)

@[simp] theorem freeScratch_h : (freeScratch s).h = s.h := rfl
@[simp] theorem freeScratch_b : (freeScratch s).b = s.b := rfl
@[simp] theorem freeScratch_c : (freeScratch s).c = s.c := rfl
@[simp] theorem freeScratch_t : (freeScratch s).t = s.t := rfl
@[simp] theorem freeScratch_nn : (freeScratch s).nn = s.nn := rfl
@[simp] theorem freeScratch_kk : (freeScratch s).kk = s.kk := rfl
@[simp] theorem freeScratch_phase : (freeScratch s).phase = s.phase := rfl
@[simp] theorem freeScratch_v : (freeScratch s).v = Config.freeWork s.draws := rfl
@[simp] theorem freeScratch_m : (freeScratch s).m = Config.freeMessage s.draws := rfl
@[simp] theorem freeScratch_seqR : (freeScratch s).seqR = Config.freeRound s.draws := rfl
@[simp] theorem freeScratch_seqG : (freeScratch s).seqG = Config.freeCall s.draws := rfl
@[simp] theorem freeScratch_draws : (freeScratch s).draws = s.draws + 1 := rfl
@[simp] theorem freeScratch_inputs : (freeScratch s).inputs = s.inputs := rfl
@[simp] theorem freeScratch_responses : (freeScratch s).responses = s.responses := rfl

end FreeScratch

section Commit
variable (s : State) (n : Byte) (f : Bool)

@[simp] theorem commit_h : (commit s n f).h = F s.h s.b (s.t + n.setWidth 64) f := rfl
@[simp] theorem commit_b : (commit s n f).b = s.b := rfl
@[simp] theorem commit_c : (commit s n f).c = s.c := rfl
@[simp] theorem commit_t : (commit s n f).t = s.t + n.setWidth 64 := rfl
@[simp] theorem commit_nn : (commit s n f).nn = s.nn := rfl
@[simp] theorem commit_kk : (commit s n f).kk = s.kk := rfl
@[simp] theorem commit_phase : (commit s n f).phase = s.phase := rfl
@[simp] theorem commit_v : (commit s n f).v = Config.freeWork s.draws := rfl
@[simp] theorem commit_m : (commit s n f).m = Config.freeMessage s.draws := rfl
@[simp] theorem commit_seqR : (commit s n f).seqR = Config.freeRound s.draws := rfl
@[simp] theorem commit_seqG : (commit s n f).seqG = Config.freeCall s.draws := rfl
@[simp] theorem commit_draws : (commit s n f).draws = s.draws + 1 := rfl
@[simp] theorem commit_inputs : (commit s n f).inputs = s.inputs := rfl
@[simp] theorem commit_responses : (commit s n f).responses = s.responses := rfl

end Commit

section ResetEvent
variable (s : State)

@[simp] theorem resetEvent_h : (resetEvent s).h = Config.freeChain s.draws := rfl
@[simp] theorem resetEvent_b : (resetEvent s).b = Memory.ofBytes (Config.freeBuffer s.draws) := rfl
@[simp] theorem resetEvent_c : (resetEvent s).c = 0 := rfl
@[simp] theorem resetEvent_t : (resetEvent s).t = 0 := rfl
@[simp] theorem resetEvent_nn : (resetEvent s).nn = 0 := rfl
@[simp] theorem resetEvent_kk : (resetEvent s).kk = 0 := rfl
@[simp] theorem resetEvent_phase : (resetEvent s).phase = .idle := rfl
@[simp] theorem resetEvent_v : (resetEvent s).v = Config.freeWork s.draws := rfl
@[simp] theorem resetEvent_m : (resetEvent s).m = Config.freeMessage s.draws := rfl
@[simp] theorem resetEvent_seqR : (resetEvent s).seqR = Config.freeRound s.draws := rfl
@[simp] theorem resetEvent_seqG : (resetEvent s).seqG = Config.freeCall s.draws := rfl
@[simp] theorem resetEvent_draws : (resetEvent s).draws = s.draws + 1 := rfl
@[simp] theorem resetEvent_inputs : (resetEvent s).inputs = s.inputs := rfl
@[simp] theorem resetEvent_responses : (resetEvent s).responses = s.responses := rfl

end ResetEvent

@[simp] theorem presentFirst_inputs (s : State) (e : HostEvent) : (s.presentFirst e).inputs = e :: s.inputs := rfl

end Sys2Proof.Machine
end

