-- ==== Sys2Proof/Laws/Ops.lean ====
section
/-! SUPPORT. One lemma per shared operation that says everything it can do; later proofs cite these and do not unfold the
operations. -/

namespace Sys2Proof.Machine

@[simp] theorem andThen_next (s : State) (k : State → Host.Outcome State Fault Refusal) : andThen (.next s) k = k s := rfl

@[simp] theorem andThen_fault (r : Fault) (k : State → Host.Outcome State Fault Refusal) :
    andThen (.fault r) k = .fault r := rfl

/-- A command that answers a next state through `andThen` answered one in its first part too. -/
theorem andThen_eq_next {o : Host.Outcome State Fault Refusal} {k : State → Host.Outcome State Fault Refusal} {t : State}
    (h : andThen o k = .next t) : ∃ s, o = .next s ∧ k s = .next t := by
  cases o with
  | next s => exact ⟨s, rfl, h⟩
  | fault r => cases h
  | refused r => cases h

/-- The buffer store: inside the buffer it writes one byte and nothing else. -/
theorem memWrite_inside {s : State} {a : Nat} (x : Byte) (ha : a < blockBytes) :
    memWrite s a x = .next { s with b := Memory.write s.b a x } := if_pos ha

/-- The buffer store: outside the buffer it faults. -/
theorem memWrite_outside {s : State} {a : Nat} (x : Byte) (ha : ¬a < blockBytes) :
    memWrite s a x = .fault .bufferAddress := if_neg ha

/-- The fill-pointer store, with room in the buffer. -/
theorem storeByte_inside {s : State} (x : Byte) (hc : s.c.toNat < blockBytes) :
    storeByte s x = .next { s with b := Memory.write s.b s.c.toNat x, c := s.c + 1 } := by
  rw [storeByte, fillPointer, memWrite_inside x hc, andThen_next]

/-- The fill-pointer store, with no room in the buffer. -/
theorem storeByte_outside {s : State} (x : Byte) (hc : ¬s.c.toNat < blockBytes) :
    storeByte s x = .fault .bufferAddress := by
  rw [storeByte, fillPointer, memWrite_outside x hc, andThen_fault]

/-- Everything the fill-pointer store can do when it answers a next state. -/
theorem storeByte_eq_next {s t : State} {x : Byte} (h : storeByte s x = .next t) :
    s.c.toNat < blockBytes ∧ t = { s with b := Memory.write s.b s.c.toNat x, c := s.c + 1 } := by
  by_cases hc : s.c.toNat < blockBytes
  · rw [storeByte_inside x hc] at h
    exact ⟨hc, (Host.Outcome.next.inj h).symm⟩
  · rw [storeByte_outside x hc] at h
    cases h

theorem respond_eq (s : State) (data : BitVec 16) : respond s data = .next (s.emit (rspWord .ok data)) := rfl

theorem raise_eq (s : State) (code : Status) : raise s code = .next (s.emit (rspWord code 0)) := rfl

/-- The host's next event, taken from the front of its stream. -/
theorem nextEvent_cons (s : State) (e : HostEvent) (rest : List HostEvent) (h : s.inputs = e :: rest) :
    nextEvent s = some (e, { s with inputs := rest }) := by rw [nextEvent, h]

theorem nextEvent_nil (s : State) (h : s.inputs = []) : nextEvent s = none := by rw [nextEvent, h]

/-- Everything a step can do: wait, or take the host's next event. -/
theorem step_cases (s : State) :
    (s.inputs = [] ∧ step s = .next s) ∨
      ∃ e rest, s.inputs = e :: rest ∧ step s = runEvent e { s with inputs := rest } := by
  cases h : s.inputs with
  | nil => exact .inl ⟨rfl, by rw [step, advance, nextEvent_nil s h]⟩
  | cons e rest => exact .inr ⟨e, rest, rfl, by rw [step, advance, nextEvent_cons s e rest h]⟩

end Sys2Proof.Machine
end

