-- ==== Sys2Proof/Laws/Exec.lean ====
section
/-! SUPPORT. One inversion lemma per meaning: everything the command can do, as a list of cases with the condition and the
outcome of each. Invariants and frames are derived from these; no later proof unfolds a meaning. -/

namespace Sys2Proof.Machine

/-- The context a successful `INIT` leaves, before its response. -/
def freshContext (s : State) (nn kk : Byte) : State :=
  { s with
    h := initialChain nn kk
    b := Memory.zeroFrom s.b 0
    c := 0
    t := 0
    nn := nn
    kk := kk
    phase := if 0 < kk.toNat then .keyload else .absorb }

/-- The state after the fill-pointer store of `x`. -/
def stored (s : State) (x : Byte) : State := { s with b := Memory.write s.b s.c.toNat x, c := s.c + 1 }

/-- The state after the commit of a full block and `c <- 0` inside `ABSB`. -/
def committed (s : State) : State := { commit s 128 notFinal with c := 0 }

/-- The context a successful `FINAL` leaves, before its response. -/
def closedContext (s : State) : State :=
  { commit { s with b := Memory.zeroFrom s.b s.c.toNat } s.c isFinal with c := 128, phase := .done }

section FreshContext
variable (s : State) (nn kk : Byte)

@[simp] theorem freshContext_h : (freshContext s nn kk).h = initialChain nn kk := rfl
@[simp] theorem freshContext_b : (freshContext s nn kk).b = Memory.zeroFrom s.b 0 := rfl
@[simp] theorem freshContext_c : (freshContext s nn kk).c = 0 := rfl
@[simp] theorem freshContext_t : (freshContext s nn kk).t = 0 := rfl
@[simp] theorem freshContext_nn : (freshContext s nn kk).nn = nn := rfl
@[simp] theorem freshContext_kk : (freshContext s nn kk).kk = kk := rfl
@[simp] theorem freshContext_phase : (freshContext s nn kk).phase = if 0 < kk.toNat then .keyload else .absorb := rfl
@[simp] theorem freshContext_v : (freshContext s nn kk).v = s.v := rfl
@[simp] theorem freshContext_m : (freshContext s nn kk).m = s.m := rfl
@[simp] theorem freshContext_seqR : (freshContext s nn kk).seqR = s.seqR := rfl
@[simp] theorem freshContext_seqG : (freshContext s nn kk).seqG = s.seqG := rfl
@[simp] theorem freshContext_draws : (freshContext s nn kk).draws = s.draws := rfl
@[simp] theorem freshContext_inputs : (freshContext s nn kk).inputs = s.inputs := rfl
@[simp] theorem freshContext_responses : (freshContext s nn kk).responses = s.responses := rfl

end FreshContext

section Stored
variable (s : State) (x : Byte)

@[simp] theorem stored_h : (stored s x).h = s.h := rfl
@[simp] theorem stored_b : (stored s x).b = Memory.write s.b s.c.toNat x := rfl
@[simp] theorem stored_c : (stored s x).c = s.c + 1 := rfl
@[simp] theorem stored_t : (stored s x).t = s.t := rfl
@[simp] theorem stored_nn : (stored s x).nn = s.nn := rfl
@[simp] theorem stored_kk : (stored s x).kk = s.kk := rfl
@[simp] theorem stored_phase : (stored s x).phase = s.phase := rfl
@[simp] theorem stored_v : (stored s x).v = s.v := rfl
@[simp] theorem stored_m : (stored s x).m = s.m := rfl
@[simp] theorem stored_seqR : (stored s x).seqR = s.seqR := rfl
@[simp] theorem stored_seqG : (stored s x).seqG = s.seqG := rfl
@[simp] theorem stored_draws : (stored s x).draws = s.draws := rfl
@[simp] theorem stored_inputs : (stored s x).inputs = s.inputs := rfl
@[simp] theorem stored_responses : (stored s x).responses = s.responses := rfl

end Stored

section Committed
variable (s : State)

@[simp] theorem committed_h : (committed s).h = F s.h s.b (s.t + (128 : Byte).setWidth 64) notFinal := commit_h s 128 notFinal
@[simp] theorem committed_b : (committed s).b = s.b := rfl
@[simp] theorem committed_c : (committed s).c = 0 := rfl
@[simp] theorem committed_t : (committed s).t = s.t + (128 : Byte).setWidth 64 := commit_t s 128 notFinal
@[simp] theorem committed_nn : (committed s).nn = s.nn := rfl
@[simp] theorem committed_kk : (committed s).kk = s.kk := rfl
@[simp] theorem committed_phase : (committed s).phase = s.phase := rfl
@[simp] theorem committed_v : (committed s).v = Config.freeWork s.draws := commit_v s 128 notFinal
@[simp] theorem committed_m : (committed s).m = Config.freeMessage s.draws := commit_m s 128 notFinal
@[simp] theorem committed_seqR : (committed s).seqR = Config.freeRound s.draws := commit_seqR s 128 notFinal
@[simp] theorem committed_seqG : (committed s).seqG = Config.freeCall s.draws := commit_seqG s 128 notFinal
@[simp] theorem committed_draws : (committed s).draws = s.draws + 1 := commit_draws s 128 notFinal
@[simp] theorem committed_inputs : (committed s).inputs = s.inputs := rfl
@[simp] theorem committed_responses : (committed s).responses = s.responses := rfl

end Committed

section ClosedContext
variable (s : State)

@[simp] theorem closedContext_h : (closedContext s).h = F s.h (Memory.zeroFrom s.b s.c.toNat) (s.t + s.c.setWidth 64) isFinal :=
  commit_h { s with b := Memory.zeroFrom s.b s.c.toNat } s.c isFinal
@[simp] theorem closedContext_b : (closedContext s).b = Memory.zeroFrom s.b s.c.toNat := rfl
@[simp] theorem closedContext_c : (closedContext s).c = 128 := rfl
@[simp] theorem closedContext_t : (closedContext s).t = s.t + s.c.setWidth 64 :=
  commit_t { s with b := Memory.zeroFrom s.b s.c.toNat } s.c isFinal
@[simp] theorem closedContext_nn : (closedContext s).nn = s.nn := rfl
@[simp] theorem closedContext_kk : (closedContext s).kk = s.kk := rfl
@[simp] theorem closedContext_phase : (closedContext s).phase = .done := rfl
@[simp] theorem closedContext_v : (closedContext s).v = Config.freeWork s.draws :=
  commit_v { s with b := Memory.zeroFrom s.b s.c.toNat } s.c isFinal
@[simp] theorem closedContext_m : (closedContext s).m = Config.freeMessage s.draws :=
  commit_m { s with b := Memory.zeroFrom s.b s.c.toNat } s.c isFinal
@[simp] theorem closedContext_seqR : (closedContext s).seqR = Config.freeRound s.draws :=
  commit_seqR { s with b := Memory.zeroFrom s.b s.c.toNat } s.c isFinal
@[simp] theorem closedContext_seqG : (closedContext s).seqG = Config.freeCall s.draws :=
  commit_seqG { s with b := Memory.zeroFrom s.b s.c.toNat } s.c isFinal
@[simp] theorem closedContext_draws : (closedContext s).draws = s.draws + 1 :=
  commit_draws { s with b := Memory.zeroFrom s.b s.c.toNat } s.c isFinal
@[simp] theorem closedContext_inputs : (closedContext s).inputs = s.inputs := rfl
@[simp] theorem closedContext_responses : (closedContext s).responses = s.responses := rfl

end ClosedContext

theorem execInit_cases (nn kk : Byte) (s : State) :
    ((outLenLegal nn = true ∧ keyLenLegal kk = true) ∧
        execInit nn kk s = .next ((freshContext s nn kk).emit (rspWord .ok 0))) ∨
      (¬(outLenLegal nn = true ∧ keyLenLegal kk = true) ∧ execInit nn kk s = .next (s.emit (rspWord .eParam 0))) := by
  by_cases h : outLenLegal nn = true ∧ keyLenLegal kk = true
  · exact .inl ⟨h, by rw [execInit, if_pos (by simp [h]), respond_eq, freshContext]⟩
  · exact .inr ⟨h, by rw [execInit, if_neg (by simpa using h), raise_eq]⟩

theorem execKeyb_cases (x : Byte) (s : State) :
    (s.phase = .keyload ∧ s.c.toNat < blockBytes ∧ s.c + 1 = s.kk ∧
        execKeyb x s = .next (({ stored s x with c := 128, phase := .absorb } : State).emit (rspWord .ok 0))) ∨
      (s.phase = .keyload ∧ s.c.toNat < blockBytes ∧ s.c + 1 ≠ s.kk ∧
        execKeyb x s = .next ((stored s x).emit (rspWord .ok 0))) ∨
      (s.phase = .keyload ∧ ¬s.c.toNat < blockBytes ∧ execKeyb x s = .fault .bufferAddress) ∨
      (s.phase ≠ .keyload ∧ execKeyb x s = .next (s.emit (rspWord .eState 0))) := by
  by_cases hp : s.phase = .keyload
  · rw [execKeyb, if_pos hp]
    by_cases hc : s.c.toNat < blockBytes
    · rw [storeByte_inside x hc, andThen_next]
      by_cases hk : s.c + 1 = s.kk
      · exact .inl ⟨hp, hc, hk, by rw [if_pos hk]; rfl⟩
      · exact .inr (.inl ⟨hp, hc, hk, by rw [if_neg hk]; rfl⟩)
    · exact .inr (.inr (.inl ⟨hp, hc, by rw [storeByte_outside x hc, andThen_fault]⟩))
  · exact .inr (.inr (.inr ⟨hp, by rw [execKeyb, if_neg hp, raise_eq]⟩))

theorem execAbsb_cases (x : Byte) (s : State) :
    (s.phase = .absorb ∧ s.c = 128 ∧ withinLimit s 128 = true ∧
        execAbsb x s = .next ((stored (committed s) x).emit (rspWord .ok 0))) ∨
      (s.phase = .absorb ∧ s.c = 128 ∧ ¬withinLimit s 128 = true ∧
        execAbsb x s = .next (s.emit (rspWord .eLength 0))) ∨
      (s.phase = .absorb ∧ s.c ≠ 128 ∧ s.c.toNat < blockBytes ∧
        execAbsb x s = .next ((stored s x).emit (rspWord .ok 0))) ∨
      (s.phase = .absorb ∧ s.c ≠ 128 ∧ ¬s.c.toNat < blockBytes ∧ execAbsb x s = .fault .bufferAddress) ∨
      (s.phase ≠ .absorb ∧ execAbsb x s = .next (s.emit (rspWord .eState 0))) := by
  by_cases hp : s.phase = .absorb
  · rw [execAbsb, if_pos hp]
    by_cases hc : s.c = 128
    · rw [if_pos hc]
      by_cases hl : withinLimit s 128 = true
      · exact .inl ⟨hp, hc, hl, by
          rw [if_pos hl, storeByte_inside (s := { commit s 128 notFinal with c := 0 }) x
            (by change (0 : Byte).toNat < blockBytes; decide), andThen_next, respond_eq]
          rfl⟩
      · exact .inr (.inl ⟨hp, hc, hl, by rw [if_neg hl, raise_eq]⟩)
    · rw [if_neg hc]
      by_cases hs : s.c.toNat < blockBytes
      · exact .inr (.inr (.inl ⟨hp, hc, hs, by rw [storeByte_inside x hs, andThen_next, respond_eq]; rfl⟩))
      · exact .inr (.inr (.inr (.inl ⟨hp, hc, hs, by rw [storeByte_outside x hs, andThen_fault]⟩)))
  · exact .inr (.inr (.inr (.inr ⟨hp, by rw [execAbsb, if_neg hp, raise_eq]⟩)))

theorem execFinal_cases (s : State) :
    (s.phase = .absorb ∧ withinLimit s s.c.toNat = true ∧
        execFinal s = .next ((closedContext s).emit (rspWord .ok 0))) ∨
      (s.phase = .absorb ∧ ¬withinLimit s s.c.toNat = true ∧ execFinal s = .next (s.emit (rspWord .eLength 0))) ∨
      (s.phase ≠ .absorb ∧ execFinal s = .next (s.emit (rspWord .eState 0))) := by
  by_cases hp : s.phase = .absorb
  · rw [execFinal, if_pos hp]
    by_cases hl : withinLimit s s.c.toNat = true
    · exact .inl ⟨hp, hl, by rw [if_pos hl, respond_eq, closedContext]⟩
    · exact .inr (.inl ⟨hp, hl, by rw [if_neg hl, raise_eq]⟩)
  · exact .inr (.inr ⟨hp, by rw [execFinal, if_neg hp, raise_eq]⟩)

theorem execRdd_cases (idx : Byte) (s : State) :
    (∃ hj : idx.toNat < 64, s.phase = .done ∧ indexLegal idx s.nn = true ∧
        execRdd idx s = .next (s.emit (rspWord .ok (byteData (digRead s.h ⟨idx.toNat, hj⟩))))) ∨
      (s.phase = .done ∧ indexLegal idx s.nn = true ∧ ¬idx.toNat < 64 ∧ execRdd idx s = .fault .digestIndex) ∨
      (s.phase = .done ∧ ¬indexLegal idx s.nn = true ∧ execRdd idx s = .next (s.emit (rspWord .eParam 0))) ∨
      (s.phase ≠ .done ∧ execRdd idx s = .next (s.emit (rspWord .eState 0))) := by
  by_cases hp : s.phase = .done
  · rw [execRdd, if_pos hp]
    by_cases hi : indexLegal idx s.nn = true
    · rw [if_pos hi]
      by_cases hj : idx.toNat < 64
      · exact .inl ⟨hj, hp, hi, by rw [dif_pos hj, respond_eq]⟩
      · exact .inr (.inl ⟨hp, hi, hj, by rw [dif_neg hj]⟩)
    · exact .inr (.inr (.inl ⟨hp, hi, by rw [if_neg hi, raise_eq]⟩))
  · exact .inr (.inr (.inr ⟨hp, by rw [execRdd, if_neg hp, raise_eq]⟩))

theorem execStat_eq (s : State) : execStat s = .next (s.emit (rspWord .ok (statData s.phase s.c))) := rfl

/-- Everything a command word can do: a word that decodes runs its meaning, any other is refused. -/
theorem runCommand_cases (w : Word) (s : State) :
    (∃ i, decode w = .ok i ∧ runCommand w s = exec i s) ∨
      (∃ why, decode w = .illegal why ∧ runCommand w s = .next (s.emit (rspWord .eIllegal 0))) := by
  cases h : decode w with
  | ok i => exact .inl ⟨i, rfl, by rw [runCommand, h]⟩
  | illegal why => exact .inr ⟨why, rfl, by rw [runCommand, h]; rfl⟩

end Sys2Proof.Machine
end

