-- ==== Sys2Proof/Laws/Host.lean ====
section
/-! SUPPORT. Sending commands one after another: what `sendOne` is in terms of `runCommand`, and how `send` splits. -/

namespace Sys2Proof.Machine

/-- The host's command is the engine's whole input, so the engine runs it at once. -/
theorem sendOne_eq (s : State) (i : Instr) :
    sendOne s i =
      match runCommand (encode i) { s with inputs := [] } with
      | .next s' => s'.responses.getLast?.map fun w => (s', w)
      | .fault _ => none
      | .refused _ => none := by
  rw [sendOne, step, advance, nextEvent_cons _ (.command (encode i)) [] rfl]
  rfl

theorem send_nil (s : State) : send s [] = ⟨s, [], none⟩ := rfl

/-- A command answered `OK` goes on with the rest. -/
theorem send_cons_ok {s s' : State} {i : Instr} {w : Word} (rest : List Instr) (h : sendOne s i = some (s', w))
    (hw : rspStatus w = 0) :
    send s (i :: rest) =
      ⟨(send s' rest).engine, w :: (send s' rest).replies, (send s' rest).error⟩ := by
  rw [send, h]
  simp only [hw, if_true]

/-- When the first commands all succeed, the rest start from where those left the engine. -/
theorem send_append (s : State) (xs ys : List Instr) (h : (send s xs).error = none) :
    send s (xs ++ ys) =
      ⟨(send (send s xs).engine ys).engine, (send s xs).replies ++ (send (send s xs).engine ys).replies,
        (send (send s xs).engine ys).error⟩ := by
  induction xs generalizing s with
  | nil => rfl
  | cons i rest ih =>
    cases hs : sendOne s i with
    | none => rw [send, hs] at h; cases h
    | some p =>
      obtain ⟨s', w⟩ := p
      by_cases hw : rspStatus w = 0
      · rw [send_cons_ok rest hs hw] at h ⊢
        rw [List.cons_append, send_cons_ok _ hs hw, ih s' h]
        rfl
      · rw [send, hs] at h
        simp only [hw, if_false] at h
        cases h

end Sys2Proof.Machine
end

