-- ==== Sys2Proof/Laws/PerInstr.lean ====
section
/-! SUPPORT. Statements for all instructions, one lemma per constructor. The family `TableRow`: the word of a command lies in
its own row of the opcode map and in no other (R67: "the six rows are disjoint"), and the line that writes the command is
well formed and assembles to that word (R72). -/

namespace Sys2Proof.Laws.TableRow

def Statement (i : Instr) : Prop :=
  (∀ r ∈ opcodeMap, r.selects (encode i) = decide (r.name = i.mnemonic)) ∧
    i.wellFormed = true ∧ assemble i.toLine = some (encode i)

/-- An 8-bit operand always fits its field. -/
theorem operandFits_byte (x : Byte) : operandFits x.toNat = true := by
  have := x.isLt
  exact decide_eq_true (by omega)

/-- A line made from a command has operands that fit, so the assembler takes it and cuts nothing off. -/
theorem assemble_toLine (i : Instr) (h : i.wellFormed = true) : assemble i.toLine = some (encode i) := by
  have back : i.toLine.toInstr = i := by cases i <;> simp [Instr.toLine, AsmLine.toInstr]
  rw [assemble, if_pos (show i.toLine.wellFormed = true from h), back]

theorem two_fields (op B A p : Byte) :
    (cmdWord op B A &&& (0xFFFF0000 : Word) == p ++ (0#8) ++ (0#8) ++ (0#8)) = decide (op = p) := by
  rw [Bool.beq_eq_decide_eq, cmdWord]
  exact decide_eq_decide.mpr (by rw [mask_two_fields]; simp)

theorem three_fields (op B A p : Byte) :
    (cmdWord op B A &&& (0xFFFFFF00 : Word) == p ++ (0#8) ++ (0#8) ++ (0#8)) = decide (op = p ∧ B = 0) := by
  rw [Bool.beq_eq_decide_eq, cmdWord]
  exact decide_eq_decide.mpr (by rw [mask_three_fields]; simp)

theorem four_fields (op B A p : Byte) :
    (cmdWord op B A &&& (0xFFFFFFFF : Word) == p ++ (0#8) ++ (0#8) ++ (0#8)) = decide (op = p ∧ B = 0 ∧ A = 0) := by
  rw [Bool.beq_eq_decide_eq, cmdWord]
  exact decide_eq_decide.mpr (by rw [mask_four_fields]; simp)

/-- What each row selects among the words of format `CMD`. -/
theorem selects_rows (op B A : Byte) :
    opcodeMap.map (fun r => r.selects (cmdWord op B A)) =
      [decide (op = 0x01), decide (op = 0x02 ∧ B = 0), decide (op = 0x03 ∧ B = 0), decide (op = 0x04 ∧ B = 0 ∧ A = 0),
        decide (op = 0x05 ∧ B = 0), decide (op = 0x06 ∧ B = 0 ∧ A = 0)] := by
  rw [← two_fields op B A 0x01, ← three_fields op B A 0x02, ← three_fields op B A 0x03, ← four_fields op B A 0x04,
    ← three_fields op B A 0x05, ← four_fields op B A 0x06]
  rfl

/-- The row condition of `Statement`, from the list of what each row selects. -/
theorem rows_of_selects {w : Word} {k : Mnemonic}
    (h : opcodeMap.map (fun r => r.selects w) = opcodeMap.map fun r => decide (r.name = k)) :
    ∀ r ∈ opcodeMap, r.selects w = decide (r.name = k) := List.map_inj_left.mp h

theorem init (nn kk : Byte) : Statement (.init nn kk) := by
  have hw : (Instr.init nn kk).wellFormed = true := by
    simp [Instr.wellFormed, Instr.toLine, AsmLine.wellFormed, operandFits_byte]
  refine ⟨rows_of_selects ?_, hw, assemble_toLine _ hw⟩
  rw [encode, selects_rows]
  rfl

theorem keyb (x : Byte) : Statement (.keyb x) := by
  have hw : (Instr.keyb x).wellFormed = true := operandFits_byte x
  refine ⟨rows_of_selects ?_, hw, assemble_toLine _ hw⟩
  rw [encode, selects_rows]
  rfl

theorem absb (x : Byte) : Statement (.absb x) := by
  have hw : (Instr.absb x).wellFormed = true := operandFits_byte x
  refine ⟨rows_of_selects ?_, hw, assemble_toLine _ hw⟩
  rw [encode, selects_rows]
  rfl

theorem final : Statement .final := by
  refine ⟨rows_of_selects ?_, rfl, assemble_toLine _ rfl⟩
  rw [encode, selects_rows]
  rfl

theorem rdd (idx : Byte) : Statement (.rdd idx) := by
  have hw : (Instr.rdd idx).wellFormed = true := operandFits_byte idx
  refine ⟨rows_of_selects ?_, hw, assemble_toLine _ hw⟩
  rw [encode, selects_rows]
  rfl

theorem stat : Statement .stat := by
  refine ⟨rows_of_selects ?_, rfl, assemble_toLine _ rfl⟩
  rw [encode, selects_rows]
  rfl

end Sys2Proof.Laws.TableRow
end

