-- ==== Sys2Proof/Laws/Response.lean ====
section
/-! SUPPORT. The fields of a response word (R65, R70), for every status and data. -/

namespace Sys2Proof.Machine

theorem rspStatus_rspWord (st : Status) (data : BitVec 16) : rspStatus (rspWord st data) = statusCode st := by
  apply BitVec.eq_of_getLsbD_eq
  intro i hi
  simp only [rspStatus, rspWord, BitVec.getLsbD_append, BitVec.getLsbD_extractLsb']
  simp [hi, show ¬24 + i < 16 by omega, show ¬24 + i - 16 < 8 by omega, show 24 + i - 16 - 8 = i by omega]

/-- Bits 23:16 of a response are zero. -/
theorem rspWord_middle (st : Status) (data : BitVec 16) : (rspWord st data).extractLsb' 16 8 = 0 := by
  apply BitVec.eq_of_getLsbD_eq
  intro i hi
  simp only [rspWord, BitVec.getLsbD_append, BitVec.getLsbD_extractLsb']
  simp [hi]

theorem rspWord_data (st : Status) (data : BitVec 16) : (rspWord st data).extractLsb' 0 16 = data := by
  apply BitVec.eq_of_getLsbD_eq
  intro i hi
  simp only [rspWord, BitVec.getLsbD_append, BitVec.getLsbD_extractLsb']
  simp [hi]

/-- A response with status `OK` is its data as a number. -/
theorem rspWord_ok_toNat (data : BitVec 16) : (rspWord .ok data).toNat = data.toNat := by
  rw [rspWord, BitVec.toNat_append, show (statusCode .ok ++ (0#8)).toNat = 0 from rfl, Nat.zero_shiftLeft, Nat.zero_or]

/-- The status is zero exactly when the command succeeded. -/
theorem statusCode_eq_zero {st : Status} : statusCode st = 0 ↔ st = .ok := by
  cases st <;> decide

/-- The data of a `STAT` response as a number (R85). -/
theorem statData_toNat (p : Phase) (c : Byte) : (statData p c).toNat = 256 * (phaseCode p).toNat + c.toNat := by
  have hc := c.isLt
  rw [statData, BitVec.toNat_append, ← Nat.shiftLeft_add_eq_or_of_lt hc, Nat.shiftLeft_eq]
  have : ((0#6) ++ phaseCode p).toNat = (phaseCode p).toNat := by rw [BitVec.toNat_append]; simp
  rw [this]
  omega

/-- The byte of an `RDD` response is the digest byte (R84). -/
theorem rspByte_byteData (x : Byte) : rspByte (rspWord .ok (byteData x)) = x := by
  apply BitVec.eq_of_getLsbD_eq
  intro i hi
  simp only [rspByte, rspWord, byteData, BitVec.getLsbD_append, BitVec.getLsbD_extractLsb', BitVec.getLsbD_setWidth]
  simp [hi, show i < 16 by omega]

/-- `DigRead(j)` as a number (R35). -/
theorem digRead_toNat (h : Vector Lane 8) (j : Fin 64) :
    (digRead h j).toNat = h[j.val / 8].toNat / 2 ^ (8 * (j.val % 8)) % 256 := by
  rw [digRead, BitVec.toNat_setWidth, BitVec.toNat_ushiftRight, Nat.shiftRight_eq_div_pow]
  rfl

end Sys2Proof.Machine
end

