-- ==== Sys2Proof/Laws/Run.lean ====
section
/-! SUPPORT. Runs of several steps, in terms of `step`. (`core.State` is `State` only by unfolding `core`, so take the equation
at a general machine and give it `core` afterwards.) -/

namespace Sys2Proof.Machine

/-- One step of any machine, then the rest. -/
theorem run_succ (M : Host.Core) (k : Nat) (s : M.State) :
    M.run (k + 1) s =
      match M.step s with
      | .next s' => M.run k s'
      | .fault r => .fault r
      | .refused r => .refused r := rfl

theorem core_run_zero (s : State) : Host.Core.run core 0 s = .next s := rfl

/-- One step of the engine, then the rest. -/
theorem core_run_succ_next {s s' : State} (k : Nat) (h : step s = .next s') :
    Host.Core.run core (k + 1) s = Host.Core.run core k s' := by
  have e := run_succ core k s
  rw [show core.step s = .next s' from h] at e
  exact e

/-- A run that answers a next state took a first step that did. -/
theorem core_run_succ_eq_next {s t : State} {k : Nat} (h : Host.Core.run core (k + 1) s = .next t) :
    ∃ s', step s = .next s' ∧ Host.Core.run core k s' = .next t := by
  have e := run_succ core k s
  cases hs : step s with
  | next s' => exact ⟨s', rfl, (core_run_succ_next k hs).symm.trans h⟩
  | fault r =>
    rw [show core.step s = .fault r from hs] at e
    cases e.symm.trans h
  | refused r =>
    rw [show core.step s = .refused r from hs] at e
    cases e.symm.trans h

end Sys2Proof.Machine
end

