-- ==== Sys2Proof/Laws/Shape.lean ====
section
/-! SUPPORT. Everything `exec` can do when it answers a next state, with the status of R108: refused, or one of the seven
ways to succeed. Statements about every command are derived from this one lemma. -/

namespace Sys2Proof.Machine

theorem operandAllows_init (nn kk : Byte) (s : State) :
    operandAllows (.init nn kk) s = true ↔ outLenLegal nn = true ∧ keyLenLegal kk = true := by
  rw [operandAllows, outLenLegal, keyLenLegal, outMin, outMax, keyMax, decide_eq_true_iff, decide_eq_true_iff,
    decide_eq_true_iff, and_assoc]

/-- Adding one to a fill count that leaves room does not wrap. -/
theorem fillCount_succ {c : Byte} (h : c.toNat < blockBytes) : (c + 1).toNat = c.toNat + 1 := by
  simp only [blockBytes] at h
  rw [BitVec.toNat_add, show (1 : Byte).toNat = 1 from rfl]
  omega

/-- The ways a command can succeed (R80 to R85), with the state each leaves. -/
def Succeeds (i : Instr) (s t : State) : Prop :=
  (∃ nn kk, i = .init nn kk ∧ outLenLegal nn = true ∧ keyLenLegal kk = true ∧
      t = (freshContext s nn kk).emit (rspWord .ok 0)) ∨
    (∃ x, i = .keyb x ∧ s.phase = .keyload ∧ s.c.toNat < blockBytes ∧ s.c.toNat + 1 = s.kk.toNat ∧
      t = ({ stored s x with c := 128, phase := .absorb } : State).emit (rspWord .ok 0)) ∨
    (∃ x, i = .keyb x ∧ s.phase = .keyload ∧ s.c.toNat < blockBytes ∧ s.c.toNat + 1 ≠ s.kk.toNat ∧
      t = (stored s x).emit (rspWord .ok 0)) ∨
    (∃ x, i = .absb x ∧ s.phase = .absorb ∧ s.c = 128 ∧ s.t.toNat + 128 ≤ tMax ∧
      t = (stored (committed s) x).emit (rspWord .ok 0)) ∨
    (∃ x, i = .absb x ∧ s.phase = .absorb ∧ s.c.toNat < blockBytes ∧ t = (stored s x).emit (rspWord .ok 0)) ∨
    (i = .final ∧ s.phase = .absorb ∧ s.t.toNat + s.c.toNat ≤ tMax ∧
      t = (closedContext s).emit (rspWord .ok 0)) ∨
    (∃ idx : Byte, ∃ hj : idx.toNat < 64, i = .rdd idx ∧ s.phase = .done ∧ idx.toNat < s.nn.toNat ∧
      t = s.emit (rspWord .ok (byteData (digRead s.h ⟨idx.toNat, hj⟩)))) ∨
    (i = .stat ∧ t = s.emit (rspWord .ok (statData s.phase s.c)))

/-- R100, R108: a command that answers a next state is refused with its status and changes nothing but the response, or has
status `OK` and succeeds. -/
theorem exec_next_cases {i : Instr} {s t : State} (e : exec i s = .next t) :
    (commandStatus i s ≠ .ok ∧ t = s.emit (rspWord (commandStatus i s) 0)) ∨
      (commandStatus i s = .ok ∧ Succeeds i s t) := by
  cases i with
  | init nn kk =>
    have hs := operandAllows_init nn kk s
    rcases execInit_cases nn kk s with ⟨h, e1⟩ | ⟨h, e1⟩ <;> rw [exec, e1] at e <;> cases e
    · exact .inr ⟨by simp [commandStatus, phaseAllows, hs.2 h, lengthAllows], .inl ⟨nn, kk, rfl, h.1, h.2, rfl⟩⟩
    · have : operandAllows (.init nn kk) s = false := Bool.eq_false_iff.mpr fun h2 => h (hs.1 h2)
      left
      simp [commandStatus, phaseAllows, this]
  | keyb x =>
    rcases execKeyb_cases x s with ⟨h1, h2, h3, e1⟩ | ⟨h1, h2, h3, e1⟩ | ⟨h1, h2, e1⟩ | ⟨h1, e1⟩ <;>
      rw [exec, e1] at e <;> cases e
    · have := congrArg BitVec.toNat h3
      rw [fillCount_succ h2] at this
      exact .inr ⟨by simp [commandStatus, phaseAllows, operandAllows, lengthAllows, h1],
        .inr (.inl ⟨x, rfl, h1, h2, this, rfl⟩)⟩
    · have : s.c.toNat + 1 ≠ s.kk.toNat := fun h =>
        h3 (BitVec.eq_of_toNat_eq (by rw [fillCount_succ h2, h]))
      exact .inr ⟨by simp [commandStatus, phaseAllows, operandAllows, lengthAllows, h1],
        .inr (.inr (.inl ⟨x, rfl, h1, h2, this, rfl⟩))⟩
    · left
      simp [commandStatus, phaseAllows, h1]
  | absb x =>
    rcases execAbsb_cases x s with ⟨h1, h2, h3, e1⟩ | ⟨h1, h2, h3, e1⟩ | ⟨h1, h2, h3, e1⟩ | ⟨h1, h2, h3, e1⟩ | ⟨h1, e1⟩ <;>
      rw [exec, e1] at e <;> cases e
    · have hl := of_decide_eq_true h3
      refine .inr ⟨?_, .inr (.inr (.inr (.inl ⟨x, rfl, h1, h2, hl, rfl⟩)))⟩
      have : lengthAllows (.absb x) s = true := decide_eq_true (by rw [tMax] at hl; omega)
      simp [commandStatus, phaseAllows, operandAllows, h1, this]
    · have hl : ¬s.t.toNat + 128 ≤ tMax := fun h => h3 (decide_eq_true h)
      have : lengthAllows (.absb x) s = false :=
        decide_eq_false (by rw [tMax] at hl; rw [h2, not_not]; exact ⟨rfl, by omega⟩)
      left
      simp [commandStatus, phaseAllows, operandAllows, h1, this]
    · refine .inr ⟨?_, .inr (.inr (.inr (.inr (.inl ⟨x, rfl, h1, h3, rfl⟩))))⟩
      have : lengthAllows (.absb x) s = true := decide_eq_true (by rw [blockBytes] at h3; omega)
      simp [commandStatus, phaseAllows, operandAllows, h1, this]
    · left
      simp [commandStatus, phaseAllows, h1]
  | final =>
    rcases execFinal_cases s with ⟨h1, h2, e1⟩ | ⟨h1, h2, e1⟩ | ⟨h1, e1⟩ <;> rw [exec, e1] at e <;> cases e
    · have hl := of_decide_eq_true h2
      refine .inr ⟨?_, .inr (.inr (.inr (.inr (.inr (.inl ⟨rfl, h1, hl, rfl⟩)))))⟩
      have : lengthAllows .final s = true := decide_eq_true (by rw [tMax] at hl; omega)
      simp [commandStatus, phaseAllows, operandAllows, h1, this]
    · have hl : ¬s.t.toNat + s.c.toNat ≤ tMax := fun h => h2 (decide_eq_true h)
      have : lengthAllows .final s = false := decide_eq_false (by rw [tMax] at hl; omega)
      left
      simp [commandStatus, phaseAllows, operandAllows, h1, this]
    · left
      simp [commandStatus, phaseAllows, h1]
  | rdd idx =>
    rcases execRdd_cases idx s with ⟨hj, h1, h2, e1⟩ | ⟨h1, h2, h3, e1⟩ | ⟨h1, h2, e1⟩ | ⟨h1, e1⟩ <;>
      rw [exec, e1] at e <;> cases e
    · refine .inr ⟨?_, .inr (.inr (.inr (.inr (.inr (.inr (.inl
        ⟨idx, hj, rfl, h1, of_decide_eq_true h2, rfl⟩))))))⟩
      have : operandAllows (.rdd idx) s = true := h2
      simp [commandStatus, phaseAllows, this, lengthAllows, h1]
    · have : operandAllows (.rdd idx) s = false := Bool.eq_false_iff.mpr h2
      left
      simp [commandStatus, phaseAllows, this, h1]
    · left
      simp [commandStatus, phaseAllows, h1]
  | stat =>
    rw [exec, execStat_eq] at e
    cases e
    exact .inr ⟨by simp [commandStatus, phaseAllows, operandAllows, lengthAllows],
      .inr (.inr (.inr (.inr (.inr (.inr (.inr ⟨rfl, rfl⟩))))))⟩

end Sys2Proof.Machine
end

