-- ==== Sys2Proof/Tests/Slice0.lean ====
section
/-! SUPPORT. Small tests of the model, their expected results taken from spec/ (95_test_vectors.md, the examples of the
rules) and never from the model, and one witness for the hypotheses of every statement that has some. -/

namespace Sys2Proof.Tests

open Sys2Proof Sys2Proof.Machine

/-- A context given by its registers, with the chaining state and the scratch of reset and an empty buffer. -/
def ctx (phase : Phase) (c : Byte) (t : Lane) (nn kk : Byte) : State :=
  { State.reset with phase := phase, c := c, t := t, nn := nn, kk := kk }

/-- The state of an outcome that is a next state. -/
def after (o : Host.Outcome State Fault Refusal) : Option State :=
  match o with
  | .next s => some s
  | .fault _ => none
  | .refused _ => none

/-- One field of the next state. -/
def see {α : Type} (o : Host.Outcome State Fault Refusal) (f : State → α) : Option α := (after o).map f

/-- The chaining state of `INIT 64, 0` (R80). -/
def h0 : Vector Lane 8 := initialChain 64 0

/-- The buffer of the message "abc" (S2). -/
def abc : List Host.Cell := [(0, 0x61), (1, 0x62), (2, 0x63)]

/-! ### Well-formedness: an ill-formed line for every check (R72) -/

theorem test_wf_init_A : AsmLine.wellFormed (.init 256 0) = false := by decide
theorem test_wf_init_B : AsmLine.wellFormed (.init 64 256) = false := by decide
theorem test_wf_keyb : AsmLine.wellFormed (.keyb 256) = false := by decide
theorem test_wf_absb : AsmLine.wellFormed (.absb 256) = false := by decide
theorem test_wf_rdd : AsmLine.wellFormed (.rdd 256) = false := by decide
/-- R72: operands outside their legal ranges are not the assembler's business. -/
theorem test_wf_illegal_operands_pass : AsmLine.wellFormed (.init 255 255) = true := by decide
theorem test_assemble_refuses : assemble (.absb 256) = none := by decide

/-! ### Decoding: words written out bit by bit from R65, R67 -/

theorem test_decode_init :
    decode ((0b00000001#8) ++ (0b00000000#8) ++ (0b01000001#8) ++ (0b00100000#8)) = .ok (.init 32 65) := by decide
theorem test_decode_keyb :
    decode ((0b00000010#8) ++ (0b00000000#8) ++ (0b00000000#8) ++ (0b11111111#8)) = .ok (.keyb 255) := by decide
theorem test_decode_absb :
    decode ((0b00000011#8) ++ (0b00000000#8) ++ (0b00000000#8) ++ (0b01100001#8)) = .ok (.absb 0x61) := by decide
theorem test_decode_final :
    decode ((0b00000100#8) ++ (0b00000000#8) ++ (0b00000000#8) ++ (0b00000000#8)) = .ok .final := by decide
theorem test_decode_rdd :
    decode ((0b00000101#8) ++ (0b00000000#8) ++ (0b00000000#8) ++ (0b11001000#8)) = .ok (.rdd 200) := by decide
theorem test_decode_stat :
    decode ((0b00000110#8) ++ (0b00000000#8) ++ (0b00000000#8) ++ (0b00000000#8)) = .ok .stat := by decide
/-- EV1: opcodes 0x00, 0x07, 0x81, 0xff. -/
theorem test_decode_opcode :
    [0x00000001, 0x07000000, 0x81000040, 0xff000000].map decode = List.replicate 4 (.illegal .opcode) := by decide
/-- EV1: reserved bits 23:16. -/
theorem test_decode_reserved :
    [0x01010040, 0x03010061, 0x05010000].map decode = List.replicate 3 (.illegal .reservedBits) := by decide
/-- EV1: `B` must be zero for `KEYB` and `RDD`. -/
theorem test_decode_operandB : [0x02000100, 0x05000100].map decode = List.replicate 2 (.illegal .operandB) := by decide
/-- EV1: `A` must be zero for `FINAL` and `STAT`. -/
theorem test_decode_operandA : [0x04000001, 0x06000001].map decode = List.replicate 2 (.illegal .operandA) := by decide
theorem test_decodeTableWord : decodeTableWord 32 0x0500003f = some (.rdd 63) := by decide
/-- R72: the examples of the syntax table, in decimal and hexadecimal, with a comment. -/
theorem test_assembleText :
    assembleText "INIT 64, 0".toList = some 0x01000040 ∧ assembleText "KEYB 0x6b ; key".toList = some 0x0200006b ∧
      assembleText "FINAL".toList = some 0x04000000 ∧ assembleText "ABSB 256".toList = none := by decide

/-! ### Arithmetic (AR1 to AR4) -/

theorem test_add64_carry : add64 0x00000000ffffffff 1 = 0x0000000100000000 := by decide
theorem test_add64_iv : add64 0x6a09e667f3bcc908 0x510e527fade682d1 = 0xbb1838e7a1a34bd9 := by decide
theorem test_rotates :
    [rotr64By32, rotr64By24, rotr64By16, rotr64By63].map (fun f => f 0x00000000ffffffff) =
      [0xffffffff00000000, 0xffffff00000000ff, 0xffff00000000ffff, 0x00000001fffffffe] := by decide
theorem test_not64 : not64 0x1f83d9abfb41bd6b = 0xe07c265404be4294 := by decide
theorem test_pairAdd :
    pairAdd ⟨0xffffffff, 0⟩ ⟨1, 0⟩ = ⟨0, 1⟩ ∧ pairAdd ⟨0xffffffff, 0xffffffff⟩ ⟨1, 0⟩ = ⟨0, 0⟩ := by decide
theorem test_pairRotates :
    [pairRotr32, pairRotr24, pairRotr16, pairRotr63].map (fun f => f ⟨0x89abcdef, 0x01234567⟩) =
      [⟨0x01234567, 0x89abcdef⟩, ⟨0x23456789, 0xabcdef01⟩, ⟨0x456789ab, 0xcdef0123⟩, ⟨0x13579bde, 0x02468acf⟩] := by
  decide

/-! ### Compression (R33, GV1, T1, T2, T4) -/

theorem test_memRead8 : memRead8 abc 0 = 0x0000000000636261 := by decide
/-- R35: bytes 0, 1 and 7 of a lane. -/
theorem test_digRead :
    [0, 1, 7].map (digRead (#v[0x0d4d1c983fa580ba, 0, 0, 0, 0, 0, 0, 0])) = [0xba, 0x80, 0x0d] := by decide
/-- GV1: one `G` in isolation; lane 1 is not in the quadruple. -/
theorem test_G :
    let v : Vector Lane 16 := Vector.ofFn fun i => BitVec.ofNat 64 (i.val * 0x0101010101010101)
    let w := G QUAD[0] 0x0000000000636261 0 v
    w[0] = 0x181818187bdddb79 ∧ w[4] = 0xefe12de1ebefede3 ∧ w[8] = 0xe3e482e4828183e5 ∧
      w[12] = 0xd3711073727173d5 ∧ w[1] = 0x0101010101010101 := by decide +kernel
/-- T2 after round 0, lanes 0 and 15. -/
theorem test_ROUND :
    let v := ROUND (loadM abc) (vInit h0 3 true) 0
    v[0] = 0x86b7c1568029bb79 ∧ v[15] = 0x2318a24e2140fc64 := by decide +kernel
/-- T4: an offset above 2^32 goes into lane 12 as a whole, and lane 13 stays. -/
theorem test_F_offset :
    F h0 [] 0x0000000100000005 true =
      #v[0x617d245a79390bc8, 0x06d4f6cdd3ee97e7, 0x5f001e020dec815a, 0x7e828bcb7c14416a, 0x2ecdc034eef66ae3,
        0x728e924a3878b802, 0x478abd3a874f7ac4, 0xcae76b198e802a98] := by decide +kernel
/-- T1: the block of the empty message, in pair form (R64). -/
theorem test_pairF :
    (pairF (splitState h0) [] 0 true)[0] = 0xf7026a78 ∧ (pairF (splitState h0) [] 0 true)[1] = 0x03590142 := by
  decide +kernel

/-! ### The commands -/

/-- R87: the row `INIT 48, 32`. -/
theorem test_init_chain :
    see (exec (.init 48 32) State.reset) (fun s => (s.h[0], s.phase, s.responses)) =
      some (0x6a09e667f2bde938, .keyload, [0x00000000]) := by decide
/-- EV1: `INIT 0, 65` reports one `E_PARAM` and leaves the reset state. -/
theorem test_init_refused :
    after (exec (.init 0 65) State.reset) = some { State.reset with responses := [0x01000000] } := by decide
/-- P2 (a) step 5: the only key byte fills the block. -/
theorem test_keyb_last :
    see (exec (.keyb 0x6b) (ctx .keyload 0 0 64 1)) (fun s => (s.b, s.c, s.phase, s.t)) =
      some ([(0, 0x6b)], 128, .absorb, 0) := by decide
/-- P2 (a) step 7: a key byte too many. -/
theorem test_keyb_refused :
    see (exec (.keyb 0) (ctx .absorb 128 0 64 1)) (·.responses) = some [0x02000000] := by decide
/-- EV3, second row: the buffer fills at the limit with no commit and no check. -/
theorem test_absb_fills :
    see (exec (.absb 1) (ctx .absorb 127 0x1fffffffffff80 64 0)) (fun s => (s.c, s.t, s.responses)) =
      some (128, 0x1fffffffffff80, [0x00000000]) := by decide
/-- P2 (a) step 8: the key block is committed, then the byte is stored at address 0. -/
theorem test_absb_commits :
    see (exec (.absb 0x61) { ctx .absorb 128 0 64 1 with h := initialChain 64 1, b := [(0, 0x6b)] })
      (fun s => (s.h[7], s.t, s.c, s.b)) = some (0xd589ef171eae45af, 128, 1, [(0, 0x61)]) := by decide +kernel
/-- P1 step 7: `FINAL` of "abc". -/
theorem test_final :
    see (exec .final { ctx .absorb 3 0 64 0 with h := h0, b := abc }) (fun s => (s.h[0], s.h[7], s.t, s.c, s.phase)) =
      some (0x0d4d1c983fa580ba, 0x239900d4ed8623b9, 3, 128, .done) := by decide +kernel
/-- EV3, fourth row: one byte above the limit. -/
theorem test_final_refused :
    see (exec .final (ctx .absorb 128 0x1fffffffffff80 64 0)) (fun s => (s.responses, s.phase)) =
      some ([0x04000000], .absorb) := by decide
/-- R84: `RDD 63` with `nn = 64` reads bits 63:56 of `h[7]`. -/
theorem test_rdd :
    see (exec (.rdd 63) { ctx .done 128 3 64 0 with h := #v[0, 0, 0, 0, 0, 0, 0, 0x239900d4ed8623b9] }) (·.responses) =
      some [0x00000023] := by decide
/-- R101: `RDD 32` with `nn = 32`. -/
theorem test_rdd_refused : see (exec (.rdd 32) (ctx .done 128 3 32 0)) (·.responses) = some [0x01000000] := by decide
/-- EV2: after three bytes, and after `FINAL`. -/
theorem test_stat :
    see (exec .stat (ctx .absorb 3 0 64 0)) (·.responses) = some [0x00000203] ∧
      see (exec .stat (ctx .done 128 3 64 0)) (·.responses) = some [0x00000380] := by decide

/-! ### The step, the ports, the host -/

/-- EV1: `INIT 64, 64` as the first command after reset. -/
theorem test_step_first :
    see (step (State.reset.withFetchWord 32 0x01004040)) (fun s => (s.phase, s.nn, s.kk, s.responses, s.inputs)) =
      some (.keyload, 64, 64, [0x00000000], []) := by decide
/-- R68: the all-ones word is answered `E_ILLEGAL`. -/
theorem test_step_illegal :
    see (step (State.reset.withFetchWord 32 0xffffffff)) (fun s => (s.phase, s.responses)) =
      some (.idle, [0x03000000]) := by decide
/-- R116: reset leaves `IDLE` and the word after it is taken next. -/
theorem test_step_reset :
    see (step { ctx .done 128 3 64 0 with inputs := [.reset, .command 0x06000000] })
      (fun s => (s.phase, s.nn, s.responses, s.inputs)) = some (.idle, 0, [], [.command 0x06000000]) := by decide
/-- R97, S7: `HASH "abc", none, 1`. -/
theorem test_hostHash :
    (hostHash State.reset [0x61, 0x62, 0x63] [] 1).2.toOption = some [0x6b] := by decide +kernel
/-- R97: the words of `HASH "abc", none, 4` (the example of the rule, with four digest bytes). -/
theorem test_hashCommands :
    (hashCommands [0x61, 0x62, 0x63] [] 4).map (·.map encode) =
      some [0x01000004, 0x03000061, 0x03000062, 0x03000063, 0x04000000, 0x05000000, 0x05000001, 0x05000002,
        0x05000003] := by decide
/-- R96: a key of 256 bytes does not fit field `B`, and nothing is issued. -/
theorem test_initk_long_key : initkCommands 64 (List.replicate 256 0) = none := by decide +kernel
/-- R97: an output length of 65 is the engine's `E_PARAM`. -/
theorem test_hostHash_refused :
    (match (hostHash State.reset [] [] 65).2 with | .error e => some e | .ok _ => none) = some (.engine 0x01) := by decide
/-- R98: the example `ba 80 a5`. -/
theorem test_hexText : hexText [0xba, 0x80, 0xa5] = "ba80a5".toList := by decide
/-- X5: `HASHHEX` of the text "abc" with no key, eight bytes (S5). -/
theorem test_hostHashHex :
    (hostHashHex State.reset (.text "abc".toList) none (some 8)).2.toOption = some "d8bb14d833d59559".toList := by
  decide +kernel
/-- R99: a key that is neither text nor bytes is refused before any command. -/
theorem test_hostHash_other :
    (hostHashDefault State.reset (.bytes []) (some .other) none).1 = State.reset ∧
      (hostHashDefault State.reset (.bytes []) (some .other) none).2.toOption = none := by decide
/-- S25: "héllø", one byte per character. -/
theorem test_textBytes : (textBytes "héllø".toList).toOption = some [0x68, 0xe9, 0x6c, 0x6c, 0xf8] := by decide
/-- R120: a waiting engine is ready; a word presented in the reset cycle is not accepted (R117). -/
theorem test_port_reset :
    portOut portReset ⟨false, true, 0x06000000⟩ = ⟨true, none⟩ ∧
      (match portClock portReset ⟨true, true, 0x06000000⟩ with
        | .next p => p.busy = none ∧ p.accepted = 0
        | .fault _ => False
        | .refused _ => False) := by
  refine ⟨by decide, ?_, ?_⟩ <;> rfl

/-! ### Witnesses: states and operands that meet the hypotheses of each statement -/

theorem witness_IllegalWordsRefused : ∃ why, decode 0x00000000 = .illegal why := ⟨.opcode, by decide⟩

theorem witness_LineTextReadsBack : AsmLine.wellFormed (.init 255 0) = true := by decide

theorem witness_StepRunsDecodedCommand :
    (State.reset.withFetchWord 32 0x01004040).inputs = .command 0x01004040 :: [] ∧
      decode 0x01004040 = .ok (.init 64 64) := by decide

theorem witness_StepWaitsForHost : State.reset.inputs = [] := by decide

theorem witness_ResetEventValues_reset :
    (State.reset.presentFirst .reset).inputs = .reset :: [] ∧
      (HostEvent.reset = .reset ∨ ∃ w, HostEvent.reset = .cutShort w) := ⟨by decide, .inl rfl⟩

theorem witness_ResetEventValues_cutShort :
    (State.reset.presentFirst (.cutShort 0x04000000)).inputs = .cutShort 0x04000000 :: [] ∧
      (HostEvent.cutShort 0x04000000 = .reset ∨ ∃ w, HostEvent.cutShort 0x04000000 = .cutShort w) :=
  ⟨by decide, .inr ⟨_, rfl⟩⟩

theorem read_nil_from (s : State) (h : s.b = []) : ∀ a, s.c.toNat ≤ a → Memory.read s.b a = 0 := by
  intro a _
  rw [h]
  rfl

/-- The invariant in `IDLE`, with a legal `INIT` waiting. -/
theorem witness_Inv_idle : Inv (State.reset.withFetchWord 32 0x01000040) :=
  ⟨by decide, rfl, rfl, rfl, rfl⟩

/-- The invariant in `KEYLOAD`, one byte short of the longest key. -/
theorem witness_Inv_keyload : Inv (ctx .keyload 63 0 64 64) :=
  ⟨by decide, by unfold ParamLegal; decide, by decide, by decide, read_nil_from _ rfl⟩

/-- The invariant in `ABSORB`, full at the length limit. -/
theorem witness_Inv_absorb : Inv (ctx .absorb 128 0x1fffffffffff80 1 0) := by
  refine ⟨by decide, by unfold ParamLegal; decide, ?_⟩
  decide

/-- The invariant in `DONE`, at the largest total. -/
theorem witness_Inv_done : Inv (ctx .done 128 0x1fffffffffffff 64 64) := by
  refine ⟨by decide, by unfold ParamLegal; decide, ?_⟩
  decide

theorem witness_InvKeptByStep :
    Inv (State.reset.withFetchWord 32 0x01000040) ∧
      ∃ t, step (State.reset.withFetchWord 32 0x01000040) = .next t := ⟨witness_Inv_idle, _, rfl⟩

theorem witness_StepNeverStops : Inv (State.reset.withFetchWord 32 0x01000040) := witness_Inv_idle

theorem witness_XorNotBitwise : 63 < 64 := by decide

theorem witness_RotateMovesBits : 0 < 63 ∧ 63 < 64 ∧ 63 < 64 := by decide

theorem witness_MixingFunctionLanes : [QUAD[7].ia, QUAD[7].ib, QUAD[7].ic, QUAD[7].id].Nodup := by decide

theorem witness_GroupOrderIrrelevant_columns : ([3, 1, 0, 2] : List (Fin 8)).Perm [0, 1, 2, 3] := by decide

theorem witness_GroupOrderIrrelevant_diagonals : ([7, 6, 4, 5] : List (Fin 8)).Perm [4, 5, 6, 7] := by decide

/-- Legal operands at both ends of their ranges. -/
theorem witness_InitCreatesContext_legal :
    (1 ≤ (1 : Byte).toNat ∧ (1 : Byte).toNat ≤ 64 ∧ (0 : Byte).toNat ≤ 64) ∧
      (1 ≤ (64 : Byte).toNat ∧ (64 : Byte).toNat ≤ 64 ∧ (64 : Byte).toNat ≤ 64) := by decide

/-- Operands just outside, each for its own reason (X1, X2, X3). -/
theorem witness_InitCreatesContext_refused :
    ¬(1 ≤ (0 : Byte).toNat ∧ (0 : Byte).toNat ≤ 64 ∧ (0 : Byte).toNat ≤ 64) ∧
      ¬(1 ≤ (65 : Byte).toNat ∧ (65 : Byte).toNat ≤ 64 ∧ (0 : Byte).toNat ≤ 64) ∧
      ¬(1 ≤ (64 : Byte).toNat ∧ (64 : Byte).toNat ≤ 64 ∧ (65 : Byte).toNat ≤ 64) := by decide

theorem witness_KeybTakesKeyByte_last :
    (ctx .keyload 63 0 64 64).phase = .keyload ∧ Memory.wf (ctx .keyload 63 0 64 64).b = true ∧
      (ctx .keyload 63 0 64 64).c.toNat < 128 ∧
      (ctx .keyload 63 0 64 64).c.toNat + 1 = (ctx .keyload 63 0 64 64).kk.toNat := by decide

theorem witness_KeybTakesKeyByte_more :
    (ctx .keyload 62 0 64 64).phase = .keyload ∧ Memory.wf (ctx .keyload 62 0 64 64).b = true ∧
      (ctx .keyload 62 0 64 64).c.toNat < 128 ∧
      (ctx .keyload 62 0 64 64).c.toNat + 1 ≠ (ctx .keyload 62 0 64 64).kk.toNat := by decide

theorem witness_KeybTakesKeyByte_refused : (ctx .absorb 128 0 64 64).phase ≠ .keyload := by decide

theorem witness_AbsbTakesMessageByte_room :
    (ctx .absorb 127 0 64 0).phase = .absorb ∧ Memory.wf (ctx .absorb 127 0 64 0).b = true ∧
      (ctx .absorb 127 0 64 0).c.toNat < 128 := by decide

/-- EV3, first row: the last commit `ABSB` may make. -/
theorem witness_AbsbTakesMessageByte_commit :
    (ctx .absorb 128 0x1fffffffffff00 64 0).phase = .absorb ∧ Memory.wf (ctx .absorb 128 0x1fffffffffff00 64 0).b = true ∧
      (ctx .absorb 128 0x1fffffffffff00 64 0).c.toNat = 128 ∧
      (ctx .absorb 128 0x1fffffffffff00 64 0).t.toNat + 128 ≤ 2 ^ 53 - 1 := by decide

/-- EV3, third row. -/
theorem witness_AbsbTakesMessageByte_limit :
    (ctx .absorb 128 0x1fffffffffff80 64 0).phase = .absorb ∧ (ctx .absorb 128 0x1fffffffffff80 64 0).c.toNat = 128 ∧
      (ctx .absorb 128 0x1fffffffffff80 64 0).t.toNat + 128 > 2 ^ 53 - 1 := by decide

theorem witness_AbsbTakesMessageByte_refused : (ctx .done 128 3 64 0).phase ≠ .absorb := by decide

/-- EV3, fifth row: the largest total with a digest; and an empty message. -/
theorem witness_FinalClosesContext_within :
    (ctx .absorb 127 0x1fffffffffff80 64 0).phase = .absorb ∧
      (ctx .absorb 127 0x1fffffffffff80 64 0).t.toNat + (ctx .absorb 127 0x1fffffffffff80 64 0).c.toNat ≤ 2 ^ 53 - 1 ∧
      (ctx .absorb 0 0 64 0).phase = .absorb ∧
      (ctx .absorb 0 0 64 0).t.toNat + (ctx .absorb 0 0 64 0).c.toNat ≤ 2 ^ 53 - 1 := by decide

/-- EV3, fourth row. -/
theorem witness_FinalClosesContext_limit :
    (ctx .absorb 128 0x1fffffffffff80 64 0).phase = .absorb ∧
      (ctx .absorb 128 0x1fffffffffff80 64 0).t.toNat + (ctx .absorb 128 0x1fffffffffff80 64 0).c.toNat > 2 ^ 53 - 1 := by
  decide

theorem witness_FinalClosesContext_refused : (ctx .keyload 1 0 64 2).phase ≠ .absorb := by decide

theorem witness_RddReadsDigestByte_read :
    (ctx .done 128 0 64 0).phase = .done ∧ (63 : Byte).toNat < (ctx .done 128 0 64 0).nn.toNat ∧
      (63 : Byte).toNat < 64 := by decide

theorem witness_RddReadsDigestByte_above :
    (ctx .done 128 0 64 0).phase = .done ∧ (ctx .done 128 0 64 0).nn.toNat ≤ (64 : Byte).toNat := by decide

theorem witness_RddReadsDigestByte_refused : (ctx .absorb 0 0 64 0).phase ≠ .done := by decide

theorem witness_ScratchAfterCommand_other : (∃ t, exec .stat State.reset = .next t) ∧ ¬Commits .stat State.reset :=
  ⟨⟨_, rfl⟩, by rintro ⟨-, h | ⟨⟨x, h⟩, -⟩⟩ <;> cases h⟩

/-- An `ABSB` that finds room commits nothing. -/
theorem witness_ScratchAfterCommand_room :
    (∃ t, exec (.absb 1) (ctx .absorb 127 0 64 0) = .next t) ∧ ¬Commits (.absb 1) (ctx .absorb 127 0 64 0) :=
  ⟨⟨_, rfl⟩, by rintro ⟨-, h | ⟨-, h⟩⟩ <;> revert h <;> decide⟩

theorem witness_ScratchAfterCommand_absb :
    (∃ t, exec (.absb 1) (ctx .absorb 128 0 64 0) = .next t) ∧ Commits (.absb 1) (ctx .absorb 128 0 64 0) :=
  ⟨⟨_, rfl⟩, by decide, .inr ⟨⟨_, rfl⟩, rfl⟩⟩

theorem witness_ScratchAfterCommand_final :
    (∃ t, exec .final (ctx .absorb 0 0 64 0) = .next t) ∧ Commits .final (ctx .absorb 0 0 64 0) :=
  ⟨⟨_, rfl⟩, by decide, .inl rfl⟩

theorem witness_MissingByteStops_keyb :
    (ctx .keyload 128 0 64 64).phase = .keyload ∧ 128 ≤ (ctx .keyload 128 0 64 64).c.toNat := by decide

theorem witness_MissingByteStops_absb :
    (ctx .absorb 129 0 64 0).phase = .absorb ∧ 128 < (ctx .absorb 129 0 64 0).c.toNat := by decide

theorem witness_MissingByteStops_rdd :
    (ctx .done 128 0 65 0).phase = .done ∧ (64 : Byte).toNat < (ctx .done 128 0 65 0).nn.toNat ∧
      64 ≤ (64 : Byte).toNat := by decide

theorem witness_RefusalPriority : ∃ t, runCommand 0x050000ff (ctx .absorb 0 0 64 0) = .next t := ⟨_, rfl⟩

theorem witness_RefusedChangesNothing :
    ∃ t, runCommand 0x04000000 State.reset = .next t ∧ t.responses = State.reset.responses ++ [0x02000000] ∧
      rspStatus 0x02000000 ≠ 0 := ⟨{ State.reset with responses := [0x02000000] }, rfl, rfl, by decide⟩

theorem witness_OneResponsePerCommand : ∃ t, runCommand 0x06000000 (ctx .absorb 128 0 64 0) = .next t := ⟨_, rfl⟩

theorem witness_PhaseTransitionTable : ∃ t, exec (.keyb 0) (ctx .keyload 63 0 64 64) = .next t := ⟨_, rfl⟩

theorem witness_ByteCounterGrowsAtCommits :
    Inv (ctx .absorb 128 0x1fffffffffff80 1 0) ∧
      ∃ t, runCommand 0x06000000 (ctx .absorb 128 0x1fffffffffff80 1 0) = .next t := ⟨witness_Inv_absorb, _, rfl⟩

theorem witness_LengthsLatched : ∃ t, runCommand 0x01004040 State.reset = .next t := ⟨_, rfl⟩

theorem witness_ScratchNeverRead :
    SameButScratch State.reset { State.reset with v := Vector.replicate 16 1, seqR := 11 } := by
  unfold SameButScratch
  decide

theorem witness_ChainHiddenBeforeFinal :
    SameButHidden (ctx .absorb 1 0 64 0) { ctx .absorb 1 0 64 0 with h := h0, b := abc } ∧
      (ctx .absorb 1 0 64 0).phase ≠ .done := by
  refine ⟨⟨rfl, rfl, rfl, rfl, rfl, rfl, rfl⟩, by decide⟩

/-- Not a legal `INIT`: `STAT`, `RDD 0`, an illegal word, `INIT 0, 0`. -/
theorem not_startsContext_stat : ¬StartsContext 0x06000000 := by
  rintro ⟨nn, kk, h, -⟩
  rw [show decode 0x06000000 = .ok .stat by decide] at h
  cases h

theorem witness_DigestStable :
    ∃ t, ({ ctx .done 128 0 64 0 with inputs := [.command 0x06000000] } : State).phase = .done ∧
      ({ ctx .done 128 0 64 0 with inputs := [.command 0x06000000] } : State).inputs =
        ([0x06000000] : List Word).map .command ∧
      (∀ w ∈ ([0x06000000] : List Word), ¬StartsContext w) ∧
      Host.Core.run core ([0x06000000] : List Word).length
        ({ ctx .done 128 0 64 0 with inputs := [.command 0x06000000] } : State) = .next t := by
  refine ⟨_, rfl, rfl, ?_, rfl⟩
  intro w hw
  rw [List.mem_singleton] at hw
  rw [hw]
  exact not_startsContext_stat

theorem witness_DigestStable_index :
    (63 : Byte).toNat < (ctx .done 128 0 64 0).nn.toNat ∧ (63 : Byte).toNat < 64 := by decide

theorem witness_InstancesIndependent :
    ∃ engines', ([ctx .done 128 0 64 0, State.reset.withFetchWord 32 0x01000040] : List State)[1]? =
        some (State.reset.withFetchWord 32 0x01000040) ∧
      runInstances [ctx .done 128 0 64 0, State.reset.withFetchWord 32 0x01000040] [0, 1, 0, 1] = .next engines' :=
  ⟨_, rfl, rfl⟩

theorem witness_LengthLimitHoldsContext :
    ∃ t, (ctx .absorb 128 0x1fffffffffff80 64 0).phase = .absorb ∧
      (ctx .absorb 128 0x1fffffffffff80 64 0).c.toNat = 128 ∧
      (ctx .absorb 128 0x1fffffffffff80 64 0).t.toNat + 128 > 2 ^ 53 - 1 ∧ ¬StartsContext 0x06000000 ∧
      runCommand 0x06000000 (ctx .absorb 128 0x1fffffffffff80 64 0) = .next t :=
  ⟨_, rfl, by decide, by decide, not_startsContext_stat, rfl⟩

theorem witness_InitStartsStream_nokey :
    outLenLegal 1 = true ∧ (0 : Byte).toNat ≤ 64 ∧ (0 : Byte).toNat = 0 := by decide

theorem witness_InitStartsStream_key :
    outLenLegal 64 = true ∧ (64 : Byte).toNat ≤ 64 ∧ 0 < (64 : Byte).toNat := by decide

/-- A fresh keyed context waiting for key byte 1 of `n`. -/
theorem keyLoading_fresh (n : Nat) (h1 : 1 ≤ n) (h64 : n ≤ 64) :
    KeyLoading { ctx .keyload 0 0 64 (BitVec.ofNat 8 n) with h := initialChain 64 (BitVec.ofNat 8 n) } n [] :=
  ⟨rfl, rfl, rfl, h1, h64, rfl, h1, rfl, rfl, rfl, fun _ => rfl⟩

theorem witness_KeyBytesAbsorbed_last :
    KeyLoading { ctx .keyload 0 0 64 (BitVec.ofNat 8 1) with h := initialChain 64 (BitVec.ofNat 8 1) } 1 [] ∧
      ([] : List Byte).length + 1 = 1 := ⟨keyLoading_fresh 1 (by decide) (by decide), rfl⟩

theorem witness_KeyBytesAbsorbed_more :
    KeyLoading { ctx .keyload 0 0 64 (BitVec.ofNat 8 64) with h := initialChain 64 (BitVec.ofNat 8 64) } 64 [] ∧
      ([] : List Byte).length + 1 < 64 := ⟨keyLoading_fresh 64 (by decide) (by decide), by decide⟩

/-- An unkeyed context that has absorbed "a". -/
theorem absorbed_a : Absorbed { ctx .absorb 1 0 64 0 with h := h0, b := [(0, 0x61)] } [] [0x61] :=
  ⟨rfl, by decide, by decide, by decide, rfl, by decide, by decide, rfl, by decide⟩

/-- A keyed context that has absorbed the key "k" and no message (P2 (a) step 6). -/
theorem absorbed_key : Absorbed { ctx .absorb 128 0 64 1 with h := initialChain 64 1, b := [(0, 0x6b)] } [0x6b] [] :=
  ⟨rfl, by decide, by decide, by decide, rfl, by decide +kernel, by decide +kernel, by decide +kernel, by decide +kernel⟩

theorem witness_AbsbExtendsMessage :
    Absorbed { ctx .absorb 1 0 64 0 with h := h0, b := [(0, 0x61)] } [] [0x61] ∧
      (inputBytes [] ([0x61] ++ [0x62])).length ≤ tMax := ⟨absorbed_a, by decide⟩

theorem witness_AbsbExtendsMessage_key :
    Absorbed { ctx .absorb 128 0 64 1 with h := initialChain 64 1, b := [(0, 0x6b)] } [0x6b] [] ∧
      (inputBytes [0x6b] ([] ++ [0x61])).length ≤ tMax := ⟨absorbed_key, by decide +kernel⟩

theorem witness_CountsAfterMessage_nokey :
    outLenLegal 1 = true ∧ ([] : List Byte).length ≤ 64 ∧ (inputBytes [] [0x61]).length ≤ tMax ∧
      ([] : List Byte) = [] ∧ 1 ≤ ([0x61] : List Byte).length := by decide

theorem witness_CountsAfterMessage_key :
    outLenLegal 64 = true ∧ (List.replicate 64 (0 : Byte)).length ≤ 64 ∧
      (inputBytes (List.replicate 64 (0 : Byte)) []).length ≤ tMax ∧ List.replicate 64 (0 : Byte) ≠ [] := by
  decide +kernel

theorem witness_FinalComputesDigest :
    Absorbed { ctx .absorb 128 0 64 1 with h := initialChain 64 1, b := [(0, 0x6b)] } [0x6b] [] ∧
      (inputBytes [0x6b] []).length ≤ tMax := ⟨absorbed_key, by decide +kernel⟩

theorem witness_HashReturnsDigest :
    outLenLegal 64 = true ∧ (List.replicate 64 (0 : Byte)).length ≤ 64 ∧
      (inputBytes (List.replicate 64 (0 : Byte)) [0x61]).length ≤ tMax := by decide +kernel

theorem witness_HashReturnsDigest_absent : ([0x61] : List Byte).length ≤ tMax := by decide

theorem witness_DigestLengthContract : ∃ t ds, hostHash State.reset [0x61, 0x62, 0x63] [] 1 = (t, .ok ds) := by
  have h := test_hostHash
  cases e : hostHash State.reset [0x61, 0x62, 0x63] [] 1 with
  | mk t r =>
    rw [e] at h
    cases r with
    | ok ds => exact ⟨t, ds, rfl⟩
    | error err => cases h

theorem witness_DigestLengthContract_hex :
    ∃ t text, hostHashHex State.reset (.text "abc".toList) none (some 8) = (t, .ok text) := by
  have h := test_hostHashHex
  cases e : hostHashHex State.reset (.text "abc".toList) none (some 8) with
  | mk t r =>
    rw [e] at h
    cases r with
    | ok text => exact ⟨t, text, rfl⟩
    | error err => cases h

theorem witness_UpdateChunking : (send (ctx .absorb 0 0 64 0) (updateCommands [0x61])).error = none := by decide +kernel

theorem witness_HexRendering : 0 < ([0xba] : List Byte).length := by decide

/-- U+00FF is the last character with a byte. -/
theorem witness_TextToBytes_bytes : ∀ ch ∈ ['a', 'ÿ'], ch.toNat ≤ 0xFF := by
  intro ch h
  rcases List.mem_cons.mp h with rfl | h
  · decide
  · rw [List.mem_singleton.mp h]
    decide

theorem witness_TextToBytes_refused : ∃ ch ∈ ['a', 'Ā'], 0xFF < ch.toNat := ⟨'Ā', by decide, by decide⟩

theorem witness_TextToBytes_call : HostInput.normalize .other = .error .invalidInput := rfl

/-- However many cycles the command takes, there is such a run: `STAT` with an idle host. -/
theorem witness_PortCompletesCommand :
    ∃ (t : State) (noise : List PortIn) (last : PortIn), portReset.busy = none ∧
      runCommand 0x06000000 portReset.engine = .next t ∧
      noise.length = Config.extraCycles 0x06000000 portReset.accepted ∧ (∀ i ∈ noise, i.rst = false) ∧
      last.rst = false := by
  refine ⟨_, List.replicate (Config.extraCycles 0x06000000 portReset.accepted) ⟨false, false, 0⟩, ⟨false, false, 0⟩,
    rfl, rfl, List.length_replicate, ?_, rfl⟩
  intro i hi
  rw [List.eq_of_mem_replicate hi]

theorem witness_PortResetAbandons :
    (⟨true, true, 0x06000000⟩ : PortIn).rst = true ∧ (⟨false, false, 0⟩ : PortIn).rst = false := by decide

end Sys2Proof.Tests
end

section
/-! PROOFS. The state of one engine (10_state.md): what a step and a command word can do, the invariant of the context
(R26, R27), the latched lengths (R18), the byte counter (R21) and the scratch (R16, R22, R23). -/

namespace Sys2Proof.Machine

/-! ### What a step and a command word can do -/

/-- The reset event, between commands or in place of the completion of one, is one transition (R116, R117). -/
theorem runEvent_of_reset {e : HostEvent} (he : e = .reset ∨ ∃ w, e = .cutShort w) (s : State) :
    runEvent e s = .next (resetEvent s) := by
  rcases he with rfl | ⟨w, rfl⟩ <;> rfl

/-- The step takes the host's next event from the stream and runs it. -/
theorem step_of_event {s : State} {e : HostEvent} {rest : List HostEvent} (h : s.inputs = e :: rest) :
    step s = runEvent e { s with inputs := rest } := by
  rw [step, advance, nextEvent_cons s e rest h]

/-- Everything a step can do when it answers a next state: wait, reset, or run a command word. -/
theorem step_next_cases {s t : State} (h : step s = .next t) :
    t = s ∨ ∃ rest, t = resetEvent { s with inputs := rest } ∨
      ∃ w, runCommand w { s with inputs := rest } = .next t := by
  rcases step_cases s with ⟨-, e⟩ | ⟨ev, rest, -, e⟩ <;> rw [e] at h
  · exact .inl (Host.Outcome.next.inj h).symm
  · cases ev with
    | command w => exact .inr ⟨rest, .inr ⟨w, h⟩⟩
    | reset => exact .inr ⟨rest, .inl (Host.Outcome.next.inj h).symm⟩
    | cutShort w => exact .inr ⟨rest, .inl (Host.Outcome.next.inj h).symm⟩

/-- An `INIT` with legal operands is never refused (R80: legal in every phase). -/
theorem commandStatus_init {nn kk : Byte} (hn : outLenLegal nn = true) (hk : keyLenLegal kk = true) (s : State) :
    commandStatus (.init nn kk) s = .ok := by
  simp [commandStatus, phaseAllows, (operandAllows_init nn kk s).mpr ⟨hn, hk⟩, lengthAllows]

/-- Everything a command word can do when it answers a next state: be refused, which starts no context, or succeed. -/
theorem runCommand_next_cases {w : Word} {s t : State} (h : runCommand w s = .next t) :
    (¬StartsContext w ∧ ∃ st, t = s.emit (rspWord st 0)) ∨ ∃ i, decode w = .ok i ∧ Succeeds i s t := by
  rcases runCommand_cases w s with ⟨i, hd, e⟩ | ⟨why, hd, e⟩ <;> rw [e] at h
  · rcases exec_next_cases h with ⟨hst, ht⟩ | ⟨-, hs⟩
    · refine .inl ⟨?_, _, ht⟩
      rintro ⟨nn, kk, hd', hn, hk⟩
      cases hd.symm.trans hd'
      exact hst (commandStatus_init hn hk s)
    · exact .inr ⟨i, hd, hs⟩
  · refine .inl ⟨?_, _, (Host.Outcome.next.inj h).symm⟩
    rintro ⟨nn, kk, hd', -⟩
    cases hd.symm.trans hd'

/-- A word that decodes to anything but an `INIT` starts no context. -/
theorem not_startsContext {w : Word} {i : Instr} (hd : decode w = .ok i) (hi : ∀ nn kk, i ≠ .init nn kk) :
    ¬StartsContext w := by
  rintro ⟨nn, kk, hd', -⟩
  exact hi nn kk (Decoded.ok.inj (hd.symm.trans hd'))

/-! ### Reset (R27, R116, R117) -/

/-- Settles O11: the values of `State.reset`, field by field. -/
theorem resetStateValues : Obligations.ResetStateValues := ⟨rfl, rfl, rfl, rfl, rfl⟩

/-- Settles O10: the step is `resetEvent` on the state with the event taken, whose fields the state's laws give. -/
theorem resetEventValues : Obligations.ResetEventValues := by
  intro s e rest hin he
  refine ⟨resetEvent { s with inputs := rest }, ?_, ?_⟩
  · rw [step_of_event hin, runEvent_of_reset he]
  · simp

/-! ### The invariant of the context (R26), phase by phase -/

section InvByPhase
variable {s : State}

theorem inv_iff_idle (hp : s.phase = .idle) :
    Inv s ↔ Memory.wf s.b = true ∧ s.c = 0 ∧ s.t = 0 ∧ s.nn = 0 ∧ s.kk = 0 := by
  rw [Inv, hp]

theorem inv_iff_keyload (hp : s.phase = .keyload) :
    Inv s ↔ Memory.wf s.b = true ∧ ParamLegal s ∧ s.t = 0 ∧ s.c.toNat < s.kk.toNat ∧
      ∀ a, s.c.toNat ≤ a → Memory.read s.b a = 0 := by
  rw [Inv, hp]

theorem inv_iff_absorb (hp : s.phase = .absorb) :
    Inv s ↔ Memory.wf s.b = true ∧ ParamLegal s ∧ s.c.toNat ≤ 128 ∧ s.t.toNat ≤ tMax ∧ s.t.toNat % 128 = 0 ∧
      (s.kk ≠ 0 → s.t = 0 → s.c = 128) ∧ (s.c = 0 → s.t = 0 ∧ s.kk = 0) := by
  rw [Inv, hp]

theorem inv_iff_done (hp : s.phase = .done) :
    Inv s ↔ Memory.wf s.b = true ∧ ParamLegal s ∧ s.c = 128 ∧ s.t.toNat ≤ tMax ∧ (s.kk ≠ 0 → 128 ≤ s.t.toNat) := by
  rw [Inv, hp]

end InvByPhase

/-- The invariant does not speak of the responses. -/
theorem inv_emit {s : State} {w : Word} : Inv (s.emit w) ↔ Inv s := Iff.rfl

/-- The invariant does not speak of what the host does next. -/
theorem inv_inputs {s : State} {rest : List HostEvent} : Inv { s with inputs := rest } ↔ Inv s := Iff.rfl

theorem inv_resetEvent (s : State) : Inv (resetEvent s) :=
  (inv_iff_idle rfl).mpr ⟨Memory.ofBytes_wf _, rfl, rfl, rfl, rfl⟩

/-- Settles O12: in `IDLE` the invariant is the reset values. -/
theorem invHoldsAtReset : Obligations.InvHoldsAtReset :=
  (inv_iff_idle rfl).mpr ⟨rfl, rfl, rfl, rfl, rfl⟩

/-- R18: the operands that `INIT` takes are legal lengths. -/
theorem paramLegal_freshContext {nn kk : Byte} (hn : outLenLegal nn = true) (hk : keyLenLegal kk = true) (s : State) :
    ParamLegal (freshContext s nn kk) := by
  obtain ⟨h1, h64⟩ := of_decide_eq_true hn
  exact ⟨h1, h64, of_decide_eq_true hk⟩

/-- `INIT` clears the whole buffer (R80). -/
theorem freshContext_b_nil (s : State) (nn kk : Byte) : (freshContext s nn kk).b = [] := Memory.zeroFrom_zero s.b

theorem inv_freshContext {nn kk : Byte} (hn : outLenLegal nn = true) (hk : keyLenLegal kk = true) (s : State) :
    Inv (freshContext s nn kk) := by
  have hwf : Memory.wf (freshContext s nn kk).b = true := by rw [freshContext_b_nil]; rfl
  have hpar := paramLegal_freshContext hn hk s
  by_cases h : 0 < kk.toNat
  · have hread : ∀ a, 0 ≤ a → Memory.read (freshContext s nn kk).b a = 0 := by
      intro a _
      rw [freshContext_b_nil]
      rfl
    exact (inv_iff_keyload (by simp [h])).mpr ⟨hwf, hpar, rfl, h, hread⟩
  · have hkk : kk = 0 := BitVec.eq_of_toNat_eq (by simpa using h)
    refine (inv_iff_absorb (by simp [h])).mpr ⟨hwf, hpar, ?_⟩
    simp [hkk]

/-- R81, R88: the last key byte fills the block, which is then the first block absorbed. -/
theorem inv_keyb_last {s : State} (hi : Inv s) (hp : s.phase = .keyload) (hc : s.c.toNat < blockBytes) (x : Byte) :
    Inv { stored s x with c := 128, phase := .absorb } := by
  obtain ⟨hwf, hpar, ht, -, -⟩ := (inv_iff_keyload hp).mp hi
  refine (inv_iff_absorb rfl).mpr ⟨Memory.write_wf hwf x hc, hpar, ?_⟩
  simp [ht]

/-- R81: a key byte that is not the last leaves the rest of the buffer zero. -/
theorem inv_keyb_more {s : State} (hi : Inv s) (hp : s.phase = .keyload) (hc : s.c.toNat < blockBytes)
    (hk : s.c.toNat + 1 ≠ s.kk.toNat) (x : Byte) : Inv (stored s x) := by
  obtain ⟨hwf, hpar, ht, hlt, hread⟩ := (inv_iff_keyload hp).mp hi
  have hsucc := fillCount_succ hc
  refine (inv_iff_keyload (s := stored s x) hp).mpr ⟨Memory.write_wf hwf x hc, hpar, ht, ?_, ?_⟩
  · rw [stored_c, stored_kk]
    omega
  · intro a ha
    rw [stored_c] at ha
    rw [stored_b, Memory.read_write hwf, if_neg (by omega), hread a (by omega)]

/-- R82: a message byte with room in the buffer. A keyed context with room has committed its key block already. -/
theorem inv_absb_room {s : State} (hi : Inv s) (hp : s.phase = .absorb) (hc : s.c.toNat < blockBytes) (x : Byte) :
    Inv (stored s x) := by
  obtain ⟨hwf, hpar, -, ht, hmod, hkey, -⟩ := (inv_iff_absorb hp).mp hi
  have hsucc := fillCount_succ hc
  refine (inv_iff_absorb (s := stored s x) hp).mpr ⟨Memory.write_wf hwf x hc, hpar, ?_, ht, hmod, ?_, ?_⟩
  · rw [blockBytes] at hc
    rw [stored_c]
    omega
  · intro hk h0
    rw [hkey hk h0] at hc
    exact absurd hc (by decide)
  · intro h0
    rw [stored_c] at h0
    rw [h0] at hsucc
    cases hsucc

/-- A count of at most `T_MAX` fits the byte counter: taking `n` more bytes does not wrap (R21, R51). -/
theorem counter_add {t : Lane} {n : Byte} (h : t.toNat + n.toNat ≤ tMax) :
    (t + n.setWidth 64).toNat = t.toNat + n.toNat := by
  have hn := n.isLt
  rw [tMax] at h
  rw [BitVec.toNat_add, BitVec.toNat_setWidth]
  omega

/-- R82, R86: a message byte that finds the buffer full: the counter grows by a whole block. -/
theorem inv_absb_commit {s : State} (hi : Inv s) (hp : s.phase = .absorb) (hl : s.t.toNat + 128 ≤ tMax) (x : Byte) :
    Inv (stored (committed s) x) := by
  obtain ⟨hwf, hpar, -, -, hmod, -, -⟩ := (inv_iff_absorb hp).mp hi
  have ht : (stored (committed s) x).t.toNat = s.t.toNat + 128 := by
    rw [stored_t, committed_t]
    exact counter_add hl
  have ht0 : (stored (committed s) x).t ≠ 0 := by
    intro h
    rw [h] at ht
    exact absurd ht (by simp)
  have hwf' : Memory.wf (stored (committed s) x).b = true :=
    Memory.write_wf hwf x (show (0 : Byte).toNat < blockBytes by decide)
  refine (inv_iff_absorb (s := stored (committed s) x) hp).mpr ⟨hwf', hpar, ?_, ?_, ?_, ?_, ?_⟩
  · rw [stored_c, committed_c]
    decide
  · rw [ht]
    exact hl
  · rw [ht]
    omega
  · exact fun _ h => absurd h ht0
  · rw [stored_c, committed_c]
    exact fun h => absurd h (by decide)

/-- R83: `FINAL`. A keyed context has at least its key block to count. -/
theorem inv_closedContext {s : State} (hi : Inv s) (hp : s.phase = .absorb) (hl : s.t.toNat + s.c.toNat ≤ tMax) :
    Inv (closedContext s) := by
  obtain ⟨hwf, hpar, -, -, hmod, hkey, -⟩ := (inv_iff_absorb hp).mp hi
  have ht : (closedContext s).t.toNat = s.t.toNat + s.c.toNat := by
    rw [closedContext_t]
    exact counter_add hl
  refine (inv_iff_done rfl).mpr ⟨Memory.zeroFrom_wf hwf _, hpar, rfl, ?_, ?_⟩
  · rw [ht]
    exact hl
  · intro hk
    rw [ht]
    by_cases h0 : s.t = 0
    · rw [hkey hk h0]
      exact Nat.le_add_left _ _
    · have : s.t.toNat ≠ 0 := fun h => h0 (BitVec.eq_of_toNat_eq h)
      omega

/-- Every way a command can succeed keeps the invariant. -/
theorem inv_of_succeeds {i : Instr} {s t : State} (hi : Inv s) (h : Succeeds i s t) : Inv t := by
  rcases h with ⟨nn, kk, -, hn, hk, rfl⟩ | ⟨x, -, hp, hc, -, rfl⟩ | ⟨x, -, hp, hc, hk, rfl⟩ | ⟨x, -, hp, -, hl, rfl⟩ |
    ⟨x, -, hp, hc, rfl⟩ | ⟨-, hp, hl, rfl⟩ | ⟨idx, hj, -, -, -, rfl⟩ | ⟨-, rfl⟩ <;> rw [inv_emit]
  · exact inv_freshContext hn hk s
  · exact inv_keyb_last hi hp hc x
  · exact inv_keyb_more hi hp hc hk x
  · exact inv_absb_commit hi hp hl x
  · exact inv_absb_room hi hp hc x
  · exact inv_closedContext hi hp hl
  · exact hi
  · exact hi

theorem inv_of_runCommand {w : Word} {s t : State} (hi : Inv s) (h : runCommand w s = .next t) : Inv t := by
  rcases runCommand_next_cases h with ⟨-, st, rfl⟩ | ⟨i, -, hs⟩
  · exact hi
  · exact inv_of_succeeds hi hs

/-- Settles O13: waiting keeps the state, reset establishes the invariant afresh, and every command keeps it. -/
theorem invKeptByStep : Obligations.InvKeptByStep := by
  intro s t hi h
  rcases step_next_cases h with rfl | ⟨rest, rfl | ⟨w, hw⟩⟩
  · exact hi
  · exact inv_resetEvent _
  · exact inv_of_runCommand (inv_inputs.mpr hi) hw

/-! ### No step stops (R115, R122) -/

/-- With the invariant no command names a byte that does not exist: `c` is below the key length in `KEYLOAD` and at most
128 in `ABSORB`, and a legal index is below 64 in `DONE`. -/
theorem exec_answers {s : State} (hi : Inv s) (i : Instr) : ∃ t, exec i s = .next t := by
  cases i with
  | init nn kk => rcases execInit_cases nn kk s with ⟨-, e⟩ | ⟨-, e⟩ <;> exact ⟨_, e⟩
  | keyb x =>
    rcases execKeyb_cases x s with ⟨-, -, -, e⟩ | ⟨-, -, -, e⟩ | ⟨hp, hc, -⟩ | ⟨-, e⟩
    · exact ⟨_, e⟩
    · exact ⟨_, e⟩
    · obtain ⟨-, ⟨-, -, hkk⟩, -, hlt, -⟩ := (inv_iff_keyload hp).mp hi
      exact absurd (show s.c.toNat < blockBytes by rw [blockBytes]; omega) hc
    · exact ⟨_, e⟩
  | absb x =>
    rcases execAbsb_cases x s with ⟨-, -, -, e⟩ | ⟨-, -, -, e⟩ | ⟨-, -, -, e⟩ | ⟨hp, hne, hc, -⟩ | ⟨-, e⟩
    · exact ⟨_, e⟩
    · exact ⟨_, e⟩
    · exact ⟨_, e⟩
    · obtain ⟨-, -, hle, -⟩ := (inv_iff_absorb hp).mp hi
      have : s.c.toNat ≠ 128 := fun h => hne (BitVec.eq_of_toNat_eq h)
      exact absurd (show s.c.toNat < blockBytes by rw [blockBytes]; omega) hc
    · exact ⟨_, e⟩
  | final => rcases execFinal_cases s with ⟨-, -, e⟩ | ⟨-, -, e⟩ | ⟨-, e⟩ <;> exact ⟨_, e⟩
  | rdd idx =>
    rcases execRdd_cases idx s with ⟨hj, -, -, e⟩ | ⟨hp, hidx, hj, -⟩ | ⟨-, -, e⟩ | ⟨-, e⟩
    · exact ⟨_, e⟩
    · obtain ⟨-, ⟨-, hnn, -⟩, -⟩ := (inv_iff_done hp).mp hi
      have : idx.toNat < s.nn.toNat := of_decide_eq_true hidx
      exact absurd (by omega) hj
    · exact ⟨_, e⟩
    · exact ⟨_, e⟩
  | stat => exact ⟨_, execStat_eq s⟩

theorem runCommand_answers {s : State} (hi : Inv s) (w : Word) : ∃ t, runCommand w s = .next t := by
  rcases runCommand_cases w s with ⟨i, -, e⟩ | ⟨why, -, e⟩ <;> rw [e]
  · exact exec_answers hi i
  · exact ⟨_, rfl⟩

/-- Settles O14: waiting and reset always answer, and so does a command in a state with the invariant. -/
theorem stepNeverStops : Obligations.StepNeverStops := by
  intro s hi
  rcases step_cases s with ⟨-, e⟩ | ⟨ev, rest, -, e⟩ <;> rw [e]
  · exact ⟨_, rfl⟩
  · cases ev with
    | command w => exact runCommand_answers (inv_inputs.mpr hi) w
    | reset => exact ⟨_, rfl⟩
    | cutShort w => exact ⟨_, rfl⟩

/-! ### Scratch, byte counter, latched lengths -/

/-- Settles O35: of the ways to succeed only the two that commit draw new free values, and a refusal draws none. -/
theorem scratchAfterCommand : Obligations.ScratchAfterCommand := by
  intro i s t h
  rcases exec_next_cases h with ⟨hst, rfl⟩ | ⟨hst, hs⟩
  · exact ⟨fun ⟨hok, _⟩ => absurd hok hst, fun _ => ⟨rfl, rfl, rfl, rfl, rfl⟩⟩
  rcases hs with ⟨nn, kk, rfl, -, -, rfl⟩ | ⟨x, rfl, -, -, -, rfl⟩ | ⟨x, rfl, -, -, -, rfl⟩ | ⟨x, rfl, -, hc, -, rfl⟩ |
    ⟨x, rfl, -, hc, rfl⟩ | ⟨rfl, -, -, rfl⟩ | ⟨idx, hj, rfl, -, -, rfl⟩ | ⟨rfl, rfl⟩
  · simp [Commits]
  · simp [Commits]
  · simp [Commits]
  · have hcom : Commits (.absb x) s := ⟨hst, .inr ⟨⟨x, rfl⟩, hc⟩⟩
    simp [hcom]
  · have hne : s.c ≠ 128 := fun h => absurd (h ▸ hc) (by decide)
    have hcom : ¬Commits (.absb x) s := by
      rintro ⟨-, h | ⟨-, h⟩⟩
      · cases h
      · exact hne h
    simp [hcom]
  · have hcom : Commits .final s := ⟨hst, .inl rfl⟩
    simp [hcom]
  · simp [Commits]
  · simp [Commits]

/-- Settles O41: `INIT` clears the counter, the two commits add the fill count to it, nothing else writes it. -/
theorem byteCounterGrowsAtCommits : Obligations.ByteCounterGrowsAtCommits := by
  intro s t w _ h
  rcases runCommand_next_cases h with ⟨-, st, rfl⟩ | ⟨i, hd, hs⟩
  · exact .inr (.inl rfl)
  rcases hs with ⟨nn, kk, rfl, hn, hk, rfl⟩ | ⟨x, rfl, -, -, -, rfl⟩ | ⟨x, rfl, -, -, -, rfl⟩ |
    ⟨x, rfl, -, hc, hl, rfl⟩ | ⟨x, rfl, -, -, rfl⟩ | ⟨rfl, -, hl, rfl⟩ | ⟨idx, hj, rfl, -, -, rfl⟩ | ⟨rfl, rfl⟩
  · exact .inl ⟨⟨nn, kk, hd, hn, hk⟩, rfl⟩
  · exact .inr (.inl rfl)
  · exact .inr (.inl rfl)
  · have hc' : s.c.toNat = 128 := congrArg BitVec.toNat hc
    have ht : (s.t + (128 : Byte).setWidth 64).toNat = s.t.toNat + s.c.toNat := by rw [hc']; exact counter_add hl
    rw [emit_t, stored_t, committed_t, ht, hc']
    exact .inr (.inr ⟨rfl, hl, .inl ⟨x, hd, rfl⟩⟩)
  · exact .inr (.inl rfl)
  · rw [emit_t, closedContext_t, counter_add hl]
    exact .inr (.inr ⟨rfl, hl, .inr hd⟩)
  · exact .inr (.inl rfl)
  · exact .inr (.inl rfl)

/-- Settles O42: a successful `INIT` latches its operands, and every other outcome keeps the lengths. -/
theorem lengthsLatched : Obligations.LengthsLatched := by
  intro s t w h
  rcases runCommand_next_cases h with ⟨hw, st, rfl⟩ | ⟨i, hd, hs⟩
  · exact .inr ⟨hw, rfl, rfl⟩
  rcases hs with ⟨nn, kk, rfl, hn, hk, rfl⟩ | ⟨x, rfl, -, -, -, rfl⟩ | ⟨x, rfl, -, -, -, rfl⟩ |
    ⟨x, rfl, -, -, -, rfl⟩ | ⟨x, rfl, -, -, rfl⟩ | ⟨rfl, -, -, rfl⟩ | ⟨idx, hj, rfl, -, -, rfl⟩ | ⟨rfl, rfl⟩
  · exact .inl ⟨nn, kk, hd, hn, hk, rfl, rfl⟩
  all_goals exact .inr ⟨not_startsContext hd nofun, rfl, rfl⟩

end Sys2Proof.Machine
end

section
/-! PROOFS. Two engines side by side: a relation between states that every update of the commands keeps makes every
command agree. With R24's and R29's relations this gives the two non-interference statements. -/

namespace Sys2Proof.Machine

/-- A relation that no command can break: related states have the same visible registers, on which all branches and all
responses but `RDD`'s depend, and every update a command makes keeps the relation. -/
structure KeptByUpdates (R : State → State → Prop) : Prop where
  c : ∀ {s t}, R s t → s.c = t.c
  t : ∀ {s t}, R s t → s.t = t.t
  nn : ∀ {s t}, R s t → s.nn = t.nn
  kk : ∀ {s t}, R s t → s.kk = t.kk
  phase : ∀ {s t}, R s t → s.phase = t.phase
  emit : ∀ {s t}, R s t → ∀ w, R (s.emit w) (t.emit w)
  fresh : ∀ {s t}, R s t → ∀ nn kk, R (freshContext s nn kk) (freshContext t nn kk)
  stored : ∀ {s t}, R s t → ∀ x, R (stored s x) (stored t x)
  keyFilled : ∀ {s t}, R s t → R { s with c := 128, phase := .absorb } { t with c := 128, phase := .absorb }
  committed : ∀ {s t}, R s t → R (committed s) (committed t)
  closed : ∀ {s t}, R s t → R (closedContext s) (closedContext t)

/-- Two branches on conditions that agree. -/
theorem outcomesAgree_ite {R : State → State → Prop} {p q : Prop} [Decidable p] [Decidable q]
    {o o' u u' : Host.Outcome State Fault Refusal} (hpq : p ↔ q) (ht : p → OutcomesAgree R o u)
    (hf : ¬p → OutcomesAgree R o' u') : OutcomesAgree R (if p then o else o') (if q then u else u') := by
  by_cases hp : p
  · rw [if_pos hp, if_pos (hpq.mp hp)]
    exact ht hp
  · rw [if_neg hp, if_neg (mt hpq.mpr hp)]
    exact hf hp

theorem outcomesAgree_andThen {R : State → State → Prop} {o u : Host.Outcome State Fault Refusal}
    {k k' : State → Host.Outcome State Fault Refusal} (h : OutcomesAgree R o u)
    (hk : ∀ s t, R s t → OutcomesAgree R (k s) (k' t)) : OutcomesAgree R (andThen o k) (andThen u k') := by
  cases o with
  | next s => cases u with
    | next t => exact hk s t h
    | fault r => exact h.elim
    | refused r => exact h.elim
  | fault r => cases u with
    | next t => exact h.elim
    | fault r' => exact h
    | refused r' => exact h.elim
  | refused r => cases u with
    | next t => exact h.elim
    | fault r' => exact h.elim
    | refused r' => exact h

section Agree
variable {R : State → State → Prop} (hR : KeptByUpdates R) {s t : State} (h : R s t)
include hR h

theorem respond_agree (data : BitVec 16) : OutcomesAgree R (respond s data) (respond t data) := hR.emit h _

theorem raise_agree (code : Status) : OutcomesAgree R (raise s code) (raise t code) := hR.emit h _

theorem storeByte_agree (x : Byte) : OutcomesAgree R (storeByte s x) (storeByte t x) := by
  by_cases hc : s.c.toNat < blockBytes
  · rw [storeByte_inside x hc, storeByte_inside x (hR.c h ▸ hc)]
    exact hR.stored h x
  · rw [storeByte_outside x hc, storeByte_outside x (hR.c h ▸ hc)]
    exact rfl

theorem withinLimit_agree (n : Nat) : withinLimit s n = withinLimit t n := by
  rw [withinLimit, withinLimit, hR.t h]

theorem execInit_agree (nn kk : Byte) : OutcomesAgree R (execInit nn kk s) (execInit nn kk t) :=
  outcomesAgree_ite Iff.rfl (fun _ => respond_agree hR (hR.fresh h nn kk) 0) fun _ => raise_agree hR h .eParam

theorem execKeyb_agree (x : Byte) : OutcomesAgree R (execKeyb x s) (execKeyb x t) := by
  refine outcomesAgree_ite (by rw [hR.phase h]) (fun _ => outcomesAgree_andThen (storeByte_agree hR h x) ?_)
    fun _ => raise_agree hR h .eState
  intro s t h
  exact outcomesAgree_ite (by rw [hR.c h, hR.kk h]) (fun _ => respond_agree hR (hR.keyFilled h) 0)
    fun _ => respond_agree hR h 0

theorem execAbsb_agree (x : Byte) : OutcomesAgree R (execAbsb x s) (execAbsb x t) := by
  have store : ∀ {s t}, R s t → OutcomesAgree R (andThen (storeByte s x) fun s => respond s 0)
      (andThen (storeByte t x) fun s => respond s 0) := fun h =>
    outcomesAgree_andThen (storeByte_agree hR h x) fun _ _ h => respond_agree hR h 0
  refine outcomesAgree_ite (by rw [hR.phase h]) (fun _ => outcomesAgree_ite (by rw [hR.c h]) (fun _ => ?_) fun _ => ?_)
    fun _ => raise_agree hR h .eState
  · exact outcomesAgree_ite (by rw [withinLimit_agree hR h]) (fun _ => store (hR.committed h))
      fun _ => raise_agree hR h .eLength
  · exact store h

theorem execFinal_agree : OutcomesAgree R (execFinal s) (execFinal t) :=
  outcomesAgree_ite (by rw [hR.phase h])
    (fun _ => outcomesAgree_ite (by rw [withinLimit_agree hR h, hR.c h]) (fun _ => respond_agree hR (hR.closed h) 0)
      fun _ => raise_agree hR h .eLength)
    fun _ => raise_agree hR h .eState

/-- `RDD` alone reads `h`, and only in `DONE`. -/
theorem execRdd_agree (hh : s.phase = .done → s.h = t.h) (idx : Byte) :
    OutcomesAgree R (execRdd idx s) (execRdd idx t) := by
  refine outcomesAgree_ite (by rw [hR.phase h])
    (fun hp => outcomesAgree_ite (by rw [hR.nn h]) (fun _ => ?_) fun _ => raise_agree hR h .eParam)
    fun _ => raise_agree hR h .eState
  rw [hh hp]
  split
  · exact respond_agree hR h _
  · exact rfl

theorem execStat_agree : OutcomesAgree R (execStat s) (execStat t) := by
  rw [execStat, execStat, hR.phase h, hR.c h]
  exact respond_agree hR h _

theorem exec_agree (hh : s.phase = .done → s.h = t.h) (i : Instr) : OutcomesAgree R (exec i s) (exec i t) := by
  cases i with
  | init nn kk => exact execInit_agree hR h nn kk
  | keyb x => exact execKeyb_agree hR h x
  | absb x => exact execAbsb_agree hR h x
  | final => exact execFinal_agree hR h
  | rdd idx => exact execRdd_agree hR h hh idx
  | stat => exact execStat_agree hR h

theorem runCommand_agree (hh : s.phase = .done → s.h = t.h) (w : Word) :
    OutcomesAgree R (runCommand w s) (runCommand w t) := by
  rw [runCommand, runCommand]
  split
  · exact exec_agree hR h hh _
  · exact raise_agree hR h .eIllegal

end Agree

/-! ### The scratch (R24) -/

theorem sameButScratch_kept : KeptByUpdates SameButScratch := by
  constructor <;> rintro s t ⟨hh, hb, hc, ht, hnn, hkk, hp, hd, hi, hr⟩
  case c => exact hc
  case t => exact ht
  case nn => exact hnn
  case kk => exact hkk
  case phase => exact hp
  all_goals simp [SameButScratch, *]

theorem resetEvent_sameButScratch {s t : State} (h : SameButScratch s t) :
    SameButScratch (resetEvent s) (resetEvent t) := by
  obtain ⟨-, -, -, -, -, -, -, hd, hi, hr⟩ := h
  simp [SameButScratch, hd, hi, hr]

/-- The same event does the same to two engines that differ in the scratch at most. -/
theorem runEvent_sameButScratch {s t : State} (h : SameButScratch s t) (e : HostEvent) :
    OutcomesAgree SameButScratch (runEvent e s) (runEvent e t) := by
  cases e with
  | command w => exact runCommand_agree sameButScratch_kept h (fun _ => h.1) w
  | reset => exact resetEvent_sameButScratch h
  | cutShort w => exact resetEvent_sameButScratch h

theorem inputs_sameButScratch {s t : State} (h : SameButScratch s t) (rest : List HostEvent) :
    SameButScratch { s with inputs := rest } { t with inputs := rest } := by
  obtain ⟨hh, hb, hc, ht, hnn, hkk, hp, hd, -, hr⟩ := h
  exact ⟨hh, hb, hc, ht, hnn, hkk, hp, hd, rfl, hr⟩

/-- Settles O43: both engines take the same event, and no event's effect reads the scratch. -/
theorem scratchNeverRead : Obligations.ScratchNeverRead := by
  intro s t h
  have ⟨_, _, _, _, _, _, _, _, hin, _⟩ := h
  rcases step_cases s with ⟨hs, e⟩ | ⟨ev, rest, hs, e⟩ <;> rw [e]
  · rw [step, advance, nextEvent_nil t (hin ▸ hs)]
    exact h
  · rw [step_of_event (hin ▸ hs)]
    exact runEvent_sameButScratch (inputs_sameButScratch h rest) ev

/-! ### The chaining state and the buffer (R29) -/

theorem sameButHidden_kept : KeptByUpdates SameButHidden := by
  constructor <;> rintro s t ⟨hc, ht, hnn, hkk, hp, hi, hr⟩
  case c => exact hc
  case t => exact ht
  case nn => exact hnn
  case kk => exact hkk
  case phase => exact hp
  all_goals simp [SameButHidden, *]

/-- Settles O44: before `DONE` every branch and every response depends on the visible registers only. -/
theorem chainHiddenBeforeFinal : Obligations.ChainHiddenBeforeFinal :=
  fun _ _ w h hp => runCommand_agree sameButHidden_kept h (fun hd => absurd hd hp) w

end Sys2Proof.Machine
end

section
/-! PROOFS. The stream: what the registers and the buffer hold of the input bytes (R26 (iv)), kept by the byte store
with and without a commit (R82, R86), and started by `INIT` (R80). -/

namespace Sys2Proof.Machine

/-- R26 (iv): `t` counts the blocks compressed, `h` is the chain over them, and the buffer holds the input since. -/
def HoldsInput (s : State) (data : List Byte) : Prop :=
  s.t.toNat = 128 * blocksBeforeLast data.length ∧ s.t.toNat + s.c.toNat = data.length ∧
    s.h = chainAfter (initialChain s.nn s.kk) data (blocksBeforeLast data.length) ∧
    ∀ a, a < s.c.toNat → Memory.read s.b a = data.getD (s.t.toNat + a) 0

theorem absorbed_iff {s : State} {key msg : List Byte} :
    Absorbed s key msg ↔ s.phase = .absorb ∧ Memory.wf s.b = true ∧ outLenLegal s.nn = true ∧ key.length ≤ 64 ∧
      s.kk = BitVec.ofNat 8 key.length ∧ HoldsInput s (inputBytes key msg) := Iff.rfl

theorem holdsInput_emit {s : State} {w : Word} {data : List Byte} :
    HoldsInput (s.emit w) data ↔ HoldsInput s data := Iff.rfl

/-- The buffer never holds more than one block (R20). -/
theorem HoldsInput.fill_le {s : State} {data : List Byte} (h : HoldsInput s data) : s.c.toNat ≤ 128 := by
  obtain ⟨ht, hn, -, -⟩ := h
  rw [blocksBeforeLast, blockBytes] at ht
  omega

/-- Room in the buffer: one more byte completes no block that was followed by input. -/
theorem blocksBeforeLast_room {n k c : Nat} (hk : k = blocksBeforeLast n) (hn : 128 * k + c = n) (hc : c < 128) :
    blocksBeforeLast (n + 1) = k := by
  rw [blocksBeforeLast, blockBytes] at hk ⊢
  omega

/-- A full buffer: one more byte follows a full block (R82, lazily). -/
theorem blocksBeforeLast_full {n k : Nat} (hn : 128 * k + 128 = n) : blocksBeforeLast (n + 1) = k + 1 := by
  rw [blocksBeforeLast, blockBytes]
  omega

/-- The bytes of the input after one more byte. -/
theorem getD_snoc_eq {data : List Byte} {x : Byte} {i : Nat} (hi : i ≤ data.length) :
    (data ++ [x]).getD i 0 = if i = data.length then x else data.getD i 0 := by
  by_cases h : i = data.length
  · subst h
    simp
  · rw [if_neg h, List.getD_append _ _ _ _ (by omega)]

/-- A full buffer is the next block of the input as message words. -/
theorem loadM_full_block {b : List Host.Cell} {data : List Byte} {k : Nat}
    (h : ∀ a, a < 128 → Memory.read b a = data.getD (128 * k + a) 0) :
    loadM b = blockWords ((data.drop (128 * k)).take 128) := by
  refine loadM_eq_blockWords fun a ha => ?_
  rw [h a ha, List.getD_eq_getElem?_getD, List.getD_eq_getElem?_getD, List.getElem?_take_of_lt ha, List.getElem?_drop]

/-- R82: a byte stored with room in the buffer. -/
theorem HoldsInput.stored {s : State} {data : List Byte} (h : HoldsInput s data) (hwf : Memory.wf s.b = true)
    (hc : s.c.toNat < blockBytes) (x : Byte) : HoldsInput (stored s x) (data ++ [x]) := by
  obtain ⟨ht, hn, hh, hb⟩ := h
  have hsucc := fillCount_succ hc
  have hlen : (data ++ [x]).length = data.length + 1 := List.length_append
  have hk : blocksBeforeLast (data.length + 1) = blocksBeforeLast data.length :=
    blocksBeforeLast_room rfl (ht ▸ hn) hc
  refine ⟨?_, ?_, ?_, ?_⟩
  · rw [hlen, hk]
    exact ht
  · rw [hlen, stored_t, stored_c]
    omega
  · rw [hlen, hk, chainAfter_append _ _ _ _ (by omega)]
    exact hh
  · intro a ha
    rw [stored_c] at ha
    rw [stored_b, stored_t, Memory.read_write hwf, getD_snoc_eq (by omega)]
    by_cases hac : a = s.c.toNat
    · rw [if_pos hac, if_pos (by omega)]
    · rw [if_neg hac, if_neg (by omega), hb a (by omega)]

/-- R86: the commit of a full buffer extends the chain by one block. -/
theorem HoldsInput.committed_h {s : State} {data : List Byte} (h : HoldsInput s data) (hc : s.c.toNat = 128)
    (hl : s.t.toNat + 128 ≤ tMax) :
    (committed s).h = chainAfter (initialChain s.nn s.kk) data (blocksBeforeLast data.length + 1) := by
  obtain ⟨ht, -, hh, hb⟩ := h
  have hoff : s.t + (128 : Byte).setWidth 64 = BitVec.ofNat 64 (128 * (blocksBeforeLast data.length + 1)) := by
    apply BitVec.eq_of_toNat_eq
    rw [counter_add hl, BitVec.toNat_ofNat, show (128 : Byte).toNat = 128 from rfl]
    rw [tMax] at hl
    omega
  have hm := loadM_full_block fun a ha => ht ▸ hb a (hc ▸ ha)
  rw [Machine.committed_h, F_eq_compress, hoff, hm, hh, chainAfter, blockBytes]

/-- R82, R86: a byte that finds the buffer full goes to address 0 after the commit. -/
theorem HoldsInput.stored_committed {s : State} {data : List Byte} (h : HoldsInput s data) (hwf : Memory.wf s.b = true)
    (hc : s.c.toNat = 128) (hl : s.t.toNat + 128 ≤ tMax) (x : Byte) :
    HoldsInput (Machine.stored (committed s) x) (data ++ [x]) := by
  have hh := h.committed_h hc hl
  obtain ⟨ht, hn, -, -⟩ := h
  have hlen : (data ++ [x]).length = data.length + 1 := List.length_append
  have hk : blocksBeforeLast (data.length + 1) = blocksBeforeLast data.length + 1 := blocksBeforeLast_full (by omega)
  have ht' : (committed s).t.toNat = s.t.toNat + 128 := counter_add hl
  refine ⟨?_, ?_, ?_, ?_⟩
  · rw [hlen, hk, stored_t, ht']
    omega
  · rw [hlen, stored_t, ht', stored_c, committed_c, show ((0 : Byte) + 1).toNat = 1 from rfl]
    omega
  · rw [hlen, hk, chainAfter_append _ _ _ _ (by omega)]
    exact hh
  · intro a ha
    obtain rfl : a = 0 := Nat.lt_one_iff.mp ha
    rw [stored_b, committed_b, committed_c, Memory.read_write hwf, stored_t, ht', getD_snoc_eq (by omega),
      if_pos (by omega : s.t.toNat + 128 + 0 = data.length)]
    rfl

/-- Settles O51: with room the byte is stored behind the input held; with a full buffer the commit comes first, and the
supported length leaves it room below `T_MAX`. -/
theorem absbExtendsMessage : Obligations.AbsbExtendsMessage := by
  intro s key msg x h hmax
  obtain ⟨hp, hwf, hnn, hkey, hkk, hin⟩ := absorbed_iff.mp h
  rw [inputBytes_snoc, List.length_append] at hmax
  have hle := hin.fill_le
  have hlen := hin.2.1
  rcases execAbsb_cases x s with ⟨-, hc, hl, e⟩ | ⟨-, hc, hl, -⟩ | ⟨-, -, hc, e⟩ | ⟨-, hne, hc, -⟩ | ⟨hp', -⟩
  · have hc' : s.c.toNat = 128 := congrArg BitVec.toNat hc
    refine ⟨_, e, rfl, absorbed_iff.mpr ⟨hp, ?_, hnn, hkey, hkk, ?_⟩⟩
    · exact Memory.write_wf hwf x (show (0 : Byte).toNat < blockBytes by decide)
    · rw [holdsInput_emit, inputBytes_snoc]
      exact hin.stored_committed hwf hc' (of_decide_eq_true hl) x
  · have hc' : s.c.toNat = 128 := congrArg BitVec.toNat hc
    exact absurd (decide_eq_true (by omega)) hl
  · refine ⟨_, e, rfl, absorbed_iff.mpr ⟨hp, Memory.write_wf hwf x hc, hnn, hkey, hkk, ?_⟩⟩
    rw [holdsInput_emit, inputBytes_snoc]
    exact hin.stored hwf hc x
  · have : s.c.toNat ≠ 128 := fun h => hne (BitVec.eq_of_toNat_eq h)
    exact absurd (show s.c.toNat < blockBytes by rw [blockBytes]; omega) hc
  · exact absurd hp hp'

/-! ### The start of the stream (R80, R88) -/

/-- R80: without a key the fresh context has absorbed nothing. -/
theorem absorbed_freshContext {nn kk : Byte} (hn : outLenLegal nn = true) (hk : kk.toNat = 0) (s : State) :
    Absorbed (freshContext s nn kk) [] [] := by
  have hwf : Memory.wf (freshContext s nn kk).b = true := by rw [freshContext_b_nil]; rfl
  refine absorbed_iff.mpr ⟨by simp [hk], hwf, hn, Nat.zero_le _, BitVec.eq_of_toNat_eq hk, rfl, rfl, rfl, ?_⟩
  exact fun a ha => absurd ha (Nat.not_lt_zero a)

/-- R80, R88: with a key the fresh context waits for the first key byte. -/
theorem keyLoading_freshContext {nn kk : Byte} (hn : outLenLegal nn = true) (hk : 0 < kk.toNat) (h64 : kk.toNat ≤ 64)
    (s : State) : KeyLoading (freshContext s nn kk) kk.toNat [] := by
  refine ⟨by simp [hk], by rw [freshContext_b_nil]; rfl, hn, hk, h64, by simp, hk, rfl, rfl, rfl, fun a => ?_⟩
  rw [freshContext_b_nil]
  rfl

/-- Settles O49: a legal `INIT` leaves the fresh context, which starts the stream with or without a key. -/
theorem initStartsStream : Obligations.InitStartsStream := by
  intro s nn kk hn h64
  rcases execInit_cases nn kk s with ⟨-, e⟩ | ⟨h, -⟩
  · exact ⟨_, e, rfl, fun hk => absorbed_freshContext hn hk s, fun hk => keyLoading_freshContext hn hk h64 s⟩
  · exact absurd ⟨hn, decide_eq_true h64⟩ h

end Sys2Proof.Machine
end

section
/-! PROOFS. The sequencer against the commit (R16, R61): where it stands after some invocations of a round, after some
rounds, and after the last one. -/

namespace Sys2Proof.Machine

/-- The sequencer with working vector `v` at index `(r, g)`. -/
def seqAt (s : State) (v : Vector Lane 16) (r : Fin 12) (g : Fin 8) : State := { s with v := v, seqR := r, seqG := g }

/-- The working vector after the first `g` invocations of round `r` (R58). -/
def afterCalls (m : Vector Lane 16) (r : Fin 12) (v : Vector Lane 16) (g : Nat) : Vector Lane 16 :=
  ((List.finRange 8).take g).foldl (invoke m r) v

/-- The working vector after the first `r` rounds (R59). -/
def afterRounds (m : Vector Lane 16) (v : Vector Lane 16) (r : Nat) : Vector Lane 16 :=
  ((List.finRange 12).take r).foldl (ROUND m) v

theorem foldl_take_finRange_succ {β : Type} {n : Nat} (f : β → Fin n → β) (b : β) (i : Fin n) :
    ((List.finRange n).take (i.val + 1)).foldl f b = f (((List.finRange n).take i.val).foldl f b) i := by
  rw [List.take_succ_eq_append_getElem (by simp), List.foldl_append, List.getElem_finRange, List.foldl_cons,
    List.foldl_nil, Fin.cast_mk]

theorem afterCalls_succ (m : Vector Lane 16) (r : Fin 12) (v : Vector Lane 16) (g : Fin 8) :
    afterCalls m r v (g.val + 1) = invoke m r (afterCalls m r v g.val) g := foldl_take_finRange_succ _ _ _

theorem ROUND_eq_afterCalls (m : Vector Lane 16) (r : Fin 12) (v : Vector Lane 16) :
    ROUND m v r = invoke m r (afterCalls m r v 7) 7 := afterCalls_succ m r v 7

theorem afterRounds_succ (m v : Vector Lane 16) (r : Fin 12) :
    afterRounds m v (r.val + 1) = ROUND m (afterRounds m v r.val) r := foldl_take_finRange_succ _ _ _

theorem allRounds_eq_afterRounds (m v : Vector Lane 16) : allRounds m v = ROUND m (afterRounds m v 11) 11 :=
  afterRounds_succ m v 11

/-- An invocation that is not the last of its round (R61). -/
theorem seqRun_call {s : State} {v : Vector Lane 16} {r : Fin 12} {g : Fin 8} (hg : g.val < 7) (k : Nat) :
    seqRun (k + 1) (seqAt s v r g) = seqRun k (seqAt s (invoke s.m r v g) r ⟨g.val + 1, by omega⟩) := by
  have hn : seqNext r g = some (r, ⟨g.val + 1, by omega⟩) := by rw [seqNext, dif_pos hg]
  simp [seqRun, seqStep, seqAt, hn]

/-- The last invocation of a round that is not the last (R61). -/
theorem seqRun_round_end {s : State} {v : Vector Lane 16} {r : Fin 12} (hr : r.val < 11) (k : Nat) :
    seqRun (k + 1) (seqAt s v r 7) = seqRun k (seqAt s (invoke s.m r v 7) ⟨r.val + 1, by omega⟩ 0) := by
  have hn : seqNext r 7 = some (⟨r.val + 1, by omega⟩, 0) := by rw [seqNext, dif_neg (by decide), dif_pos hr]
  simp [seqRun, seqStep, seqAt, hn]

/-- The last invocation of all: the feed-forward follows and the commit ends (R60, R61). -/
theorem seqRun_last (s : State) (v : Vector Lane 16) (k : Nat) :
    seqRun (k + 1) (seqAt s v 11 7) = some (freeScratch { s with h := feedForward s.h (invoke s.m 11 v 7) }) := rfl

/-- The first `g` invocations of a round, up to the one with index `g`. -/
theorem seqRun_calls (s : State) (v : Vector Lane 16) (r : Fin 12) (g : Nat) (hg : g < 8) (k : Nat) :
    seqRun (k + g) (seqAt s v r 0) = seqRun k (seqAt s (afterCalls s.m r v g) r ⟨g, hg⟩) := by
  induction g generalizing k with
  | zero => rfl
  | succ g ih =>
    rw [show k + (g + 1) = (k + 1) + g by omega, ih (by omega), seqRun_call (show g < 7 by omega),
      ← afterCalls_succ s.m r v ⟨g, by omega⟩]

/-- A whole round that is not the last. -/
theorem seqRun_round (s : State) (v : Vector Lane 16) {r : Fin 12} (hr : r.val < 11) (k : Nat) :
    seqRun (k + 8) (seqAt s v r 0) = seqRun k (seqAt s (ROUND s.m v r) ⟨r.val + 1, by omega⟩ 0) := by
  rw [show k + 8 = (k + 1) + 7 by omega, seqRun_calls s v r 7 (by decide),
    show (⟨7, by decide⟩ : Fin 8) = 7 from rfl, seqRun_round_end hr, ← ROUND_eq_afterCalls]

/-- The first `r` rounds. -/
theorem seqRun_rounds (s : State) (v : Vector Lane 16) (r : Nat) (hr : r < 12) (k : Nat) :
    seqRun (k + 8 * r) (seqAt s v 0 0) = seqRun k (seqAt s (afterRounds s.m v r) ⟨r, hr⟩ 0) := by
  induction r generalizing k with
  | zero => rfl
  | succ r ih =>
    rw [show k + 8 * (r + 1) = (k + 8) + 8 * r by omega, ih (by omega),
      seqRun_round s _ (show r < 11 by omega), ← afterRounds_succ s.m v ⟨r, by omega⟩]

/-- The working vector before the last invocation of a commit. -/
def lastWork (h : Vector Lane 8) (b : List Host.Cell) (t : Lane) (f : Bool) : Vector Lane 16 :=
  afterCalls (loadM b) 11 (afterRounds (loadM b) (vInit h t f) 11) 7

/-- `F` ends with the last invocation and the feed-forward (R59, R60). -/
theorem F_eq_lastWork (h : Vector Lane 8) (b : List Host.Cell) (t : Lane) (f : Bool) :
    F h b t f = feedForward h (invoke (loadM b) 11 (lastWork h b t f) 7) := by
  rw [F, compress, workVector, allRounds_eq_afterRounds, ROUND_eq_afterCalls, lastWork]

/-- After 95 invocations the sequencer stands before the last one: eleven whole rounds and seven invocations. -/
theorem seqRun_to_last (s : State) (n : Byte) (f : Bool) (k : Nat) :
    seqRun (k + 95) (seqBegin s n f) =
      seqRun k (seqAt (seqBegin s n f) (lastWork s.h s.b (s.t + n.setWidth 64) f) 11 7) :=
  calc seqRun (k + 95) (seqBegin s n f)
    _ = seqRun (k + 7 + 8 * 11) (seqAt (seqBegin s n f) (vInit s.h (s.t + n.setWidth 64) f) 0 0) := rfl
    _ = seqRun (k + 7) (seqAt (seqBegin s n f) (afterRounds (loadM s.b) (vInit s.h (s.t + n.setWidth 64) f) 11) 11 0) :=
      seqRun_rounds _ _ 11 (by decide) (k + 7)
    _ = _ := seqRun_calls _ _ 11 7 (by decide) k

/-- Settles O25: the 96th invocation is the last one of `F`, and before it the commit has not ended. -/
theorem sequencerRunsCommit : Obligations.SequencerRunsCommit := by
  intro s n f
  refine ⟨?_, seqRun_to_last s n f 0⟩
  calc seqRun 96 (seqBegin s n f)
    _ = seqRun 1 (seqAt (seqBegin s n f) (lastWork s.h s.b (s.t + n.setWidth 64) f) 11 7) := seqRun_to_last s n f 1
    _ = some (freeScratch { seqBegin s n f with
          h := feedForward s.h (invoke (loadM s.b) 11 (lastWork s.h s.b (s.t + n.setWidth 64) f) 7) }) :=
      seqRun_last (seqBegin s n f) _ 0
    _ = some (commit s n f) := by
      rw [← F_eq_lastWork]
      rfl

end Sys2Proof.Machine
end

section
/-! PROOFS. The datapath on 32-bit pairs (R28, R49, R50, R64): splitting every lane commutes with each part of `F`. -/

namespace Sys2Proof.Machine

/-! ### A lane and its two words -/

theorem getLsbD_joinLane (p : LanePair) (i : Nat) :
    (joinLane p).getLsbD i = if i < 32 then p.lo.getLsbD i else p.hi.getLsbD (i - 32) := by
  rw [joinLane, BitVec.getLsbD_append]

theorem joinLane_toNat (p : LanePair) : (joinLane p).toNat = p.hi.toNat * 2 ^ 32 + p.lo.toNat := by
  rw [joinLane, BitVec.toNat_append, ← Nat.shiftLeft_add_eq_or_of_lt p.lo.isLt, Nat.shiftLeft_eq]

theorem joinLane_splitLane (x : Lane) : joinLane (splitLane x) = x := by
  apply BitVec.eq_of_getLsbD_eq
  intro i hi
  rw [getLsbD_joinLane, splitLane]
  by_cases h : i < 32
  · simp [h]
  · simp [h, show i - 32 < 32 by omega, show 32 + (i - 32) = i by omega]

theorem splitLane_joinLane (p : LanePair) : splitLane (joinLane p) = p := by
  have hlo : (joinLane p).extractLsb' 0 32 = p.lo := by
    apply BitVec.eq_of_getLsbD_eq
    intro i hi
    simp [getLsbD_joinLane, hi]
  have hhi : (joinLane p).extractLsb' 32 32 = p.hi := by
    apply BitVec.eq_of_getLsbD_eq
    intro i hi
    simp [getLsbD_joinLane, hi]
  rw [splitLane, hlo, hhi]

/-- A pair operation that joins to a lane operation is what splitting makes of it. -/
theorem splitLane_of_joinLane {p : LanePair} {x : Lane} (h : joinLane p = x) : splitLane x = p := by
  rw [← h, splitLane_joinLane]

/-! ### The primitives on pairs (R49, R50) -/

theorem joinLane_pairAdd (a b : LanePair) : joinLane (pairAdd a b) = add64 (joinLane a) (joinLane b) := by
  apply BitVec.eq_of_toNat_eq
  rw [add64, BitVec.toNat_add, joinLane_toNat, joinLane_toNat, joinLane_toNat, pairAdd]
  simp only [BitVec.toNat_ofNat]
  omega

theorem joinLane_pairXor (a b : LanePair) : joinLane (pairXor a b) = xor64 (joinLane a) (joinLane b) :=
  BitVec.xor_append.symm

theorem joinLane_pairNot (a : LanePair) : joinLane (pairNot a) = not64 (joinLane a) := BitVec.not_append.symm

/-- R44: bit `i` of a rotate is bit `i + n` of its operand, around the end. -/
theorem getLsbD_rotr64 (x : Lane) {n i : Nat} (hn : n < 64) (hi : i < 64) :
    (rotr64 x n).getLsbD i = x.getLsbD ((i + n) % 64) := by
  simp only [rotr64, BitVec.getLsbD_or, BitVec.getLsbD_ushiftRight, BitVec.getLsbD_shiftLeft]
  by_cases h : i + n < 64
  · rw [Nat.mod_eq_of_lt h, Nat.add_comm i n]
    simp [show i < 64 - n by omega]
  · rw [BitVec.getLsbD_of_ge x (n + i) (by omega)]
    simp [hi, show ¬i < 64 - n by omega, show (i + n) % 64 = i - (64 - n) by omega]

theorem joinLane_pairRotr32 (x : LanePair) : joinLane (pairRotr32 x) = rotr64By32 (joinLane x) := by
  apply BitVec.eq_of_getLsbD_eq
  intro i hi
  rw [rotr64By32, getLsbD_rotr64 _ (by decide) hi, getLsbD_joinLane, getLsbD_joinLane, pairRotr32]
  by_cases h : i < 32
  · rw [if_pos h, if_neg (by omega)]
    congr 1
    omega
  · rw [if_neg h, if_pos (by omega)]
    congr 1
    omega

/-- The pair whose words are shifted by `n` into each other. -/
def pairShift (x : LanePair) (n : Nat) : LanePair :=
  ⟨(x.lo >>> n) ||| (x.hi <<< (32 - n)), (x.hi >>> n) ||| (x.lo <<< (32 - n))⟩

/-- A funnel shift of two words: bit `i` comes from the first word while it lasts, then from the second. -/
theorem getLsbD_funnel (a b : Word) {n i : Nat} (hn : n < 32) (hi : i < 32) :
    ((a >>> n) ||| (b <<< (32 - n))).getLsbD i = if i + n < 32 then a.getLsbD (i + n) else b.getLsbD (i + n - 32) := by
  simp only [BitVec.getLsbD_or, BitVec.getLsbD_ushiftRight, BitVec.getLsbD_shiftLeft]
  by_cases h : i + n < 32
  · rw [if_pos h, Nat.add_comm i n]
    simp [show i < 32 - n by omega]
  · rw [BitVec.getLsbD_of_ge a (n + i) (by omega)]
    simp [hi, h, show ¬i < 32 - n by omega, show i + n - 32 = i - (32 - n) by omega]

/-- R50: a rotate by less than a word is two funnel shifts. -/
theorem joinLane_pairShift (x : LanePair) {n : Nat} (hn : n < 32) :
    joinLane (pairShift x n) = rotr64 (joinLane x) n := by
  apply BitVec.eq_of_getLsbD_eq
  intro i hi
  rw [getLsbD_rotr64 _ (by omega) hi, getLsbD_joinLane, getLsbD_joinLane, pairShift]
  by_cases h : i < 32
  · rw [if_pos h, getLsbD_funnel _ _ hn h, Nat.mod_eq_of_lt (by omega)]
  · rw [if_neg h, getLsbD_funnel _ _ hn (by omega)]
    by_cases h2 : i - 32 + n < 32
    · rw [if_pos h2, if_neg (by omega)]
      congr 1
      omega
    · rw [if_neg h2, if_pos (by omega)]
      congr 1
      omega

theorem joinLane_pairRotr24 (x : LanePair) : joinLane (pairRotr24 x) = rotr64By24 (joinLane x) :=
  joinLane_pairShift x (n := 24) (by decide)

theorem joinLane_pairRotr16 (x : LanePair) : joinLane (pairRotr16 x) = rotr64By16 (joinLane x) :=
  joinLane_pairShift x (n := 16) (by decide)

/-- R50: the rotate by 63 swaps the words and rotates by 31. -/
theorem joinLane_pairRotr63 (x : LanePair) : joinLane (pairRotr63 x) = rotr64By63 (joinLane x) := by
  have hswap : joinLane (pairRotr63 x) = rotr64 (joinLane (pairRotr32 x)) 31 :=
    joinLane_pairShift (pairRotr32 x) (by decide)
  rw [hswap, joinLane_pairRotr32]
  apply BitVec.eq_of_getLsbD_eq
  intro i hi
  rw [rotr64By32, rotr64By63, getLsbD_rotr64 _ (by decide) hi, getLsbD_rotr64 _ (by decide) (by omega),
    getLsbD_rotr64 _ (by decide) hi]
  congr 1
  omega

section Split
variable (x y : Lane)

theorem splitLane_add64 : splitLane (add64 x y) = pairAdd (splitLane x) (splitLane y) :=
  splitLane_of_joinLane (by rw [joinLane_pairAdd, joinLane_splitLane, joinLane_splitLane])

theorem splitLane_xor64 : splitLane (xor64 x y) = pairXor (splitLane x) (splitLane y) :=
  splitLane_of_joinLane (by rw [joinLane_pairXor, joinLane_splitLane, joinLane_splitLane])

theorem splitLane_not64 : splitLane (not64 x) = pairNot (splitLane x) :=
  splitLane_of_joinLane (by rw [joinLane_pairNot, joinLane_splitLane])

theorem splitLane_rotr64By32 : splitLane (rotr64By32 x) = pairRotr32 (splitLane x) :=
  splitLane_of_joinLane (by rw [joinLane_pairRotr32, joinLane_splitLane])

theorem splitLane_rotr64By24 : splitLane (rotr64By24 x) = pairRotr24 (splitLane x) :=
  splitLane_of_joinLane (by rw [joinLane_pairRotr24, joinLane_splitLane])

theorem splitLane_rotr64By16 : splitLane (rotr64By16 x) = pairRotr16 (splitLane x) :=
  splitLane_of_joinLane (by rw [joinLane_pairRotr16, joinLane_splitLane])

theorem splitLane_rotr64By63 : splitLane (rotr64By63 x) = pairRotr63 (splitLane x) :=
  splitLane_of_joinLane (by rw [joinLane_pairRotr63, joinLane_splitLane])

end Split

/-! ### Files of words (R28, R64) -/

/-- Two files of words with the same lanes are equal. -/
theorem wordFile_ext {v w : Vector Word 32} (h : ∀ i : Fin 16, getPair v i = getPair w i) : v = w := by
  apply Vector.ext
  intro j hj
  have hp := h ⟨j / 2, by omega⟩
  simp only [getPair, LanePair.mk.injEq] at hp
  obtain ⟨hlo, hhi⟩ := hp
  rcases Nat.mod_two_eq_zero_or_one j with h2 | h2
  · simpa only [show 2 * (j / 2) = j by omega] using hlo
  · simpa only [show 2 * (j / 2) + 1 = j by omega] using hhi

theorem getPair_setPair (v : Vector Word 32) (i j : Fin 16) (p : LanePair) :
    getPair (setPair v i p) j = if j = i then p else getPair v j := by
  by_cases h : j = i
  · subst h
    simp [getPair, setPair]
  · have hv : i.val ≠ j.val := fun hv => h (Fin.ext hv.symm)
    rw [if_neg h]
    simp [getPair, setPair, hv, show 2 * i.val + 1 ≠ 2 * j.val by omega,
      show 2 * i.val ≠ 2 * j.val + 1 by omega]

/-- Words `2i` and `2i + 1` of a file of lanes are the halves of lane `i` (R28). -/
theorem wordOfLanes_even {n : Nat} (v : Vector Lane n) {i : Nat} (hi : i < n) (h : 2 * i / 2 < n) :
    wordOfLanes v (2 * i) h = (splitLane v[i]).lo := by
  simp [wordOfLanes]

theorem wordOfLanes_odd {n : Nat} (v : Vector Lane n) {i : Nat} (hi : i < n) (h : (2 * i + 1) / 2 < n) :
    wordOfLanes v (2 * i + 1) h = (splitLane v[i]).hi := by
  simp [wordOfLanes, show (2 * i + 1) / 2 = i by omega]

theorem getPair_splitWork (v : Vector Lane 16) (i : Fin 16) : getPair (splitWork v) i = splitLane v[i] := by
  simp only [getPair, splitWork, Vector.getElem_ofFn, wordOfLanes_even v i.isLt, wordOfLanes_odd v i.isLt]
  rfl

theorem setPair_splitWork (v : Vector Lane 16) (i : Fin 16) (x : Lane) :
    setPair (splitWork v) i (splitLane x) = splitWork (v.set i x) := by
  apply wordFile_ext
  intro j
  rw [getPair_setPair, getPair_splitWork, getPair_splitWork]
  by_cases h : j = i
  · subst h
    rw [if_pos rfl, lane_set_self]
  · rw [if_neg h, lane_set_ne _ _ (Ne.symm h)]

/-! ### The parts of `F` on words (R64) -/

/-- A doubled schedule entry selects the same message word. -/
theorem pairWord_splitWork (m : Vector Lane 16) (r : Fin 12) (k : Fin 16) :
    pairWord (splitWork m) (sigmaDoubled r k) = splitLane m[sigma r k] := getPair_splitWork m (sigma r k)

theorem pairG_splitWork (q : Quad) (x y : Lane) (v : Vector Lane 16) :
    pairG q (splitLane x) (splitLane y) (splitWork v) = splitWork (G q x y v) := by
  simp only [pairG, G, getPair_splitWork, ← splitLane_add64, ← splitLane_xor64, ← splitLane_rotr64By32,
    ← splitLane_rotr64By24, ← splitLane_rotr64By16, ← splitLane_rotr64By63, setPair_splitWork]

theorem pairInvoke_splitWork (m v : Vector Lane 16) (r : Fin 12) (g : Fin 8) :
    pairInvoke (splitWork m) r (splitWork v) g = splitWork (invoke m r v g) := by
  rw [pairInvoke, pairWord_splitWork, pairWord_splitWork, pairG_splitWork]
  rfl

theorem pairRound_splitWork (m v : Vector Lane 16) (r : Fin 12) :
    pairRound (splitWork m) (splitWork v) r = splitWork (ROUND m v r) :=
  List.foldl_hom splitWork fun v g => pairInvoke_splitWork m v r g

theorem pairRounds_splitWork (m v : Vector Lane 16) :
    (List.finRange 12).foldl (pairRound (splitWork m)) (splitWork v) = splitWork (allRounds m v) :=
  List.foldl_hom splitWork fun v r => pairRound_splitWork m v r

/-- Two words of four bytes side by side are a lane of eight bytes. -/
theorem append_words (b7 b6 b5 b4 b3 b2 b1 b0 : Byte) :
    ((b7 ++ b6 ++ b5 ++ b4) ++ (b3 ++ b2 ++ b1 ++ b0) : Lane) = b7 ++ b6 ++ b5 ++ b4 ++ b3 ++ b2 ++ b1 ++ b0 := by
  simp only [BitVec.append_assoc', BitVec.cast_eq]

theorem pairLoadM_eq (b : List Host.Cell) : pairLoadM b = splitWork (loadM b) := by
  apply wordFile_ext
  intro i
  rw [getPair_splitWork]
  refine (splitLane_of_joinLane ?_).symm
  have h8 : 4 * (2 * i.val) = 8 * i.val := by omega
  have h4 : 4 * (2 * i.val + 1) = 8 * i.val + 4 := by omega
  simp only [joinLane, getPair, pairLoadM, loadM, memRead8, feederAddress, Vector.getElem_ofFn, Fin.getElem_fin, h8, h4]
  exact append_words _ _ _ _ _ _ _ _

/-- The words of the working vector before the offset and the flag. -/
def pairVCopy (h : Vector Word 16) : Vector Word 32 :=
  Vector.ofFn fun j => if hj : j.val < 16 then h[j.val] else pairIV[j.val - 16]

theorem pairVCopy_splitState (h : Vector Lane 8) : pairVCopy (splitState h) = splitWork (vCopy h) := by
  apply Vector.ext
  intro j hj
  by_cases h16 : j < 16
  · simp [pairVCopy, splitState, splitWork, wordOfLanes, vCopy, h16, show j / 2 < 8 by omega]
  · simp [pairVCopy, pairIV, splitState, splitWork, wordOfLanes, vCopy, h16, show ¬j / 2 < 8 by omega,
      show (j - 16) / 2 = j / 2 - 8 by omega, show (j - 16) % 2 = j % 2 by omega]

/-- R64: words 24 and 25, which take the two halves of the offset, are lane 12. -/
theorem pairOffset_eq (v : Vector Word 32) (t : Lane) :
    (v.set 24 (v[24] ^^^ t.extractLsb' 0 32)).set 25
        ((v.set 24 (v[24] ^^^ t.extractLsb' 0 32))[25] ^^^ t.extractLsb' 32 32) =
      setPair v 12 (pairXor (getPair v 12) (splitLane t)) := by
  rw [Vector.getElem_set_ne _ _ (by decide)]
  rfl

/-- R64: words 28 and 29, which are complemented on the final block, are lane 14. -/
theorem pairVInit_eq (h : Vector Word 16) (t : Lane) (f : Bool) :
    pairVInit h t f =
      let v := setPair (pairVCopy h) 12 (pairXor (getPair (pairVCopy h) 12) (splitLane t))
      if f then setPair v 14 (pairNot (getPair v 14)) else v := by
  rw [← pairOffset_eq]
  rfl

theorem pairVInit_splitState (h : Vector Lane 8) (t : Lane) (f : Bool) :
    pairVInit (splitState h) t f = splitWork (vInit h t f) := by
  simp only [pairVInit_eq, pairVCopy_splitState, getPair_splitWork, ← splitLane_xor64, ← splitLane_not64,
    setPair_splitWork]
  cases f <;> rfl

theorem wordOfLanes_feedForward (h : Vector Lane 8) (v : Vector Lane 16) (j : Nat) (hj : j < 16) :
    wordOfLanes (feedForward h v) j (by omega) =
      wordOfLanes h j (by omega) ^^^ wordOfLanes v j (by omega) ^^^ wordOfLanes v (j + 16) (by omega) := by
  have hl : (feedForward h v)[j / 2] = xor64 (xor64 h[j / 2] v[j / 2]) v[j / 2 + 8] := by simp [feedForward]
  simp only [wordOfLanes, hl, splitLane_xor64, pairXor, show (j + 16) % 2 = j % 2 by omega,
    show (j + 16) / 2 = j / 2 + 8 by omega]
  split <;> rfl

theorem pairFeedForward_split (h : Vector Lane 8) (v : Vector Lane 16) :
    pairFeedForward (splitState h) (splitWork v) = splitState (feedForward h v) := by
  apply Vector.ext
  intro j hj
  simp [pairFeedForward, splitState, splitWork, wordOfLanes_feedForward h v j hj]

/-- Settles O27: each part of `pairF` is the split of the same part of `F`. -/
theorem pairCompressionAgrees : Obligations.PairCompressionAgrees := by
  intro h b t f
  rw [pairF, pairLoadM_eq, pairVInit_splitState, pairRounds_splitWork, pairFeedForward_split]
  rfl

end Sys2Proof.Machine
end

section
/-! PROOFS. Memory and ports (20_memory.md): a command word that decodes is one `exec` (R39), and a command that names a byte
of the buffer or of the digest window that does not exist stops (R34, R35; log entry 10). -/

namespace Sys2Proof.Machine

/-! ### The command port (R39, R69, R122) -/

/-- A word that decodes runs its meaning (R69). -/
theorem runCommand_of_decode {w : Word} {i : Instr} (hd : decode w = .ok i) (s : State) : runCommand w s = exec i s := by
  rw [runCommand, hd]

/-- Settles O8: the step runs the event at the front of the stream, and the word's meaning is that of its decoding. -/
theorem stepRunsDecodedCommand : Obligations.StepRunsDecodedCommand := by
  intro s w rest i hin hd
  calc step s = runCommand w { s with inputs := rest } := step_of_event hin
    _ = exec i { s with inputs := rest } := runCommand_of_decode hd _

/-! ### Bytes that do not exist (R34, R35) -/

/-- The store at the fill pointer is the first thing `KEYB` does (R81), so outside the buffer it stops the command. -/
theorem execKeyb_outside {s : State} (x : Byte) (hp : s.phase = .keyload) (hc : ¬s.c.toNat < blockBytes) :
    execKeyb x s = .fault .bufferAddress := by
  rcases execKeyb_cases x s with ⟨-, hin, -⟩ | ⟨-, hin, -⟩ | ⟨-, -, e⟩ | ⟨hne, -⟩
  · exact absurd hin hc
  · exact absurd hin hc
  · exact e
  · exact absurd hp hne

/-- `ABSB` commits only at `c = 128` (R82), so above it the store is still at the fill pointer and stops the command. -/
theorem execAbsb_outside {s : State} (x : Byte) (hp : s.phase = .absorb) (h128 : s.c ≠ 128)
    (hc : ¬s.c.toNat < blockBytes) : execAbsb x s = .fault .bufferAddress := by
  rcases execAbsb_cases x s with ⟨-, hfull, -⟩ | ⟨-, hfull, -⟩ | ⟨-, -, hin, -⟩ | ⟨-, -, -, e⟩ | ⟨hne, -⟩
  · exact absurd hfull h128
  · exact absurd hfull h128
  · exact absurd hin hc
  · exact e
  · exact absurd hp hne

/-- An index that `nn` admits but the digest window does not have (R35) stops `RDD`. -/
theorem execRdd_outside {s : State} {idx : Byte} (hp : s.phase = .done) (hidx : indexLegal idx s.nn = true)
    (hj : ¬idx.toNat < 64) : execRdd idx s = .fault .digestIndex := by
  rcases execRdd_cases idx s with ⟨hin, -⟩ | ⟨-, -, -, e⟩ | ⟨-, hill, -⟩ | ⟨hne, -⟩
  · exact absurd hin hj
  · exact e
  · exact absurd hidx hill
  · exact absurd hp hne

/-- Settles O36: each bound puts the command in its one stopping case; `c` above 128 is not the full buffer `ABSB` commits. -/
theorem missingByteStops : Obligations.MissingByteStops := by
  intro s x
  refine ⟨fun hp hc => execKeyb_outside x hp hc.not_gt, fun hp hc => execAbsb_outside x hp ?_ hc.le.not_gt,
    fun hp hidx hj => execRdd_outside hp (decide_eq_true hidx) hj.not_gt⟩
  intro h128
  rw [h128] at hc
  exact absurd hc (by decide)

end Sys2Proof.Machine
end

section
/-! PROOFS. The command word and the response word (30_encoding.md): decoder and encoder (R65 to R67), illegal words (R68), the
count of legal words (R69), the response to a command (R70, R71), the assembler and its text (R72). -/

namespace Sys2Proof.Machine

/-! ### Decoder and encoder (R65 to R67) -/

/-- A word of format `CMD` by its fields (R65). -/
theorem eq_cmdWord_iff {w : Word} {p B A : Byte} :
    w = cmdWord p B A ↔ fieldOp w = p ∧ fieldRsv w = 0 ∧ fieldB w = B ∧ fieldA w = A := by
  conv_lhs => rw [← word_eq_fields w, cmdWord, fields_inj]
  rfl

/-- Each command's own fields pass the test of its row, which gives its operands back. -/
theorem decode_encode (i : Instr) : decode (encode i) = .ok i := by
  cases i <;> rw [encode, cmdWord, decode_fields] <;> rfl

/-- Where a row accepts the fields, every field without an operand is zero, as `encode` writes it (R66). -/
theorem fields_eq_encode {op r B A : Byte} {i : Instr} (h : decode (op ++ r ++ B ++ A) = .ok i) :
    op ++ r ++ B ++ A = encode i := by
  rw [decode_fields] at h
  split_ifs at h with h1 hr h2 hr h3 hr h4 hr h5 hr h6 hr <;> cases h
  · rw [h1, hr]; rfl
  · rw [h2, hr.1, hr.2]; rfl
  · rw [h3, hr.1, hr.2]; rfl
  · rw [h4, hr.1, hr.2.1, hr.2.2]; rfl
  · rw [h5, hr.1, hr.2]; rfl
  · rw [h6, hr.1, hr.2.1, hr.2.2]; rfl

theorem decode_eq_ok_iff {w : Word} {i : Instr} : decode w = .ok i ↔ w = encode i := by
  constructor
  · rw [← word_eq_fields w]
    exact fields_eq_encode
  · rintro rfl
    exact decode_encode i

/-- Settles O1: the decoder undoes the encoder, and accepts no word that the encoder does not write. -/
theorem decodeEncodeAgree : Obligations.DecodeEncodeAgree := fun _ _ => decode_eq_ok_iff

/-! ### The opcode map by match and mask (R67) -/

section Masks
variable (w : Word) (p : Byte)

/-- The mask of `INIT` leaves both operands open. -/
theorem masked_two_iff :
    w &&& 0xFFFF0000 = p ++ (0#8) ++ (0#8) ++ (0#8) ↔ w = cmdWord p (fieldB w) (fieldA w) := by
  have h := mask_two_fields (fieldOp w) (fieldRsv w) (fieldB w) (fieldA w) p
  rw [word_eq_fields] at h
  rw [h, eq_cmdWord_iff]
  simp

/-- The mask of `KEYB`, `ABSB`, `RDD` leaves operand `A` open. -/
theorem masked_three_iff : w &&& 0xFFFFFF00 = p ++ (0#8) ++ (0#8) ++ (0#8) ↔ w = cmdWord p 0 (fieldA w) := by
  have h := mask_three_fields (fieldOp w) (fieldRsv w) (fieldB w) (fieldA w) p
  rw [word_eq_fields] at h
  rw [h, eq_cmdWord_iff]
  simp

/-- The mask of `FINAL`, `STAT` leaves nothing open. -/
theorem masked_four_iff : w &&& 0xFFFFFFFF = p ++ (0#8) ++ (0#8) ++ (0#8) ↔ w = cmdWord p 0 0 := by
  have h := mask_four_fields (fieldOp w) (fieldRsv w) (fieldB w) (fieldA w) p
  rw [word_eq_fields] at h
  rw [h, eq_cmdWord_iff]

end Masks

/-- Settles O2: what each mask selects is the word that `encode` writes for the row's command. -/
theorem opcodeMapRows : Obligations.OpcodeMapRows := by
  intro w
  simp only [decode_eq_ok_iff]
  exact ⟨masked_two_iff w 0x01, masked_three_iff w 0x02, masked_three_iff w 0x03, masked_four_iff w 0x04,
    masked_three_iff w 0x05, masked_four_iff w 0x06⟩

/-- Settles O5: fixed words, each evaluated. -/
theorem specWordsDecode : Obligations.SpecWordsDecode := by
  refine ⟨?_, ?_, ?_, ?_, ?_, ?_, ⟨.opcode, ?_⟩, ⟨.opcode, ?_⟩⟩ <;> decide

/-! ### Illegal words (R68, R103) -/

/-- R68's conditions, opcode by opcode. -/
theorem illegal_fields_iff (op r B A : Byte) :
    (∃ why, decode (op ++ r ++ B ++ A) = .illegal why) ↔
      op.toNat = 0x00 ∨ 0x07 ≤ op.toNat ∨ r.toNat ≠ 0 ∨ (B.toNat ≠ 0 ∧ op.toNat ≠ 0x01) ∨
        (A.toNat ≠ 0 ∧ (op.toNat = 0x04 ∨ op.toNat = 0x06)) := by
  rw [decode_fields]
  split_ifs <;> simp only [exists_false, exists_eq', Decoded.illegal.injEq, false_iff, true_iff] <;> bv_omega

/-- A word that is no command gets `E_ILLEGAL` and nothing else (R103). -/
theorem runCommand_of_illegal {w : Word} {why : IllegalWord} (hd : decode w = .illegal why) (s : State) :
    runCommand w s = .next (s.emit (rspWord .eIllegal 0)) := by
  rcases runCommand_cases w s with ⟨i, hd', -⟩ | ⟨-, -, e⟩
  · cases hd.symm.trans hd'
  · exact e

/-- Settles O3: R68's conditions on the word's four fields, and the response of a refused word. -/
theorem illegalWordsRefused : Obligations.IllegalWordsRefused := by
  refine ⟨fun w => ?_, fun w s ⟨_, hd⟩ => runCommand_of_illegal hd s⟩
  have h := illegal_fields_iff (fieldOp w) (fieldRsv w) (fieldB w) (fieldA w)
  rwa [word_eq_fields] at h

/-! ### How many words are legal (R69) -/

theorem encode_injective : Function.Injective encode := by
  intro i j h
  have hj := decode_encode j
  rw [← h, decode_encode] at hj
  exact Decoded.ok.inj hj

theorem card_byte : Nat.card Byte = 256 := by
  simpa using Nat.card_congr (BitVec.equivFin (m := 8)).toEquiv

/-- Commands given by operands in `α` take one word for each operand: the words are the range of `encode` on them. -/
theorem card_words {α : Type} {f : α → Instr} (hf : Function.Injective f) :
    Nat.card { w : Word // ∃ a, decode w = .ok (f a) } = Nat.card α := by
  have words_eq_range : { w : Word | ∃ a, decode w = .ok (f a) } = Set.range (encode ∘ f) := by
    ext w
    simp [decode_eq_ok_iff, eq_comm]
  rw [← Nat.card_range_of_injective (encode_injective.comp hf), ← words_eq_range]
  rfl

/-- `INIT` has two operands. -/
theorem card_words_init : Nat.card { w : Word // ∃ nn kk, decode w = .ok (.init nn kk) } = 2 ^ 16 := by
  have init_injective : Function.Injective fun p : Byte × Byte => Instr.init p.1 p.2 := by
    rintro ⟨nn, kk⟩ ⟨nn', kk'⟩ h
    cases h
    rfl
  have h := card_words init_injective
  simp only [Prod.exists] at h
  rw [h, Nat.card_prod, card_byte]
  rfl

/-- A command without operands takes one word. -/
theorem card_words_one (i : Instr) : Nat.card { w : Word // decode w = .ok i } = 1 := by
  simp only [decode_eq_ok_iff]
  exact Nat.card_unique

/-- A command is one of six rows with that row's operands (R67). -/
def instrEquivRows : Instr ≃ (Byte × Byte) ⊕ Byte ⊕ Byte ⊕ Unit ⊕ Byte ⊕ Unit where
  toFun
    | .init nn kk => .inl (nn, kk)
    | .keyb x => .inr (.inl x)
    | .absb x => .inr (.inr (.inl x))
    | .final => .inr (.inr (.inr (.inl ())))
    | .rdd idx => .inr (.inr (.inr (.inr (.inl idx))))
    | .stat => .inr (.inr (.inr (.inr (.inr ()))))
  invFun
    | .inl (nn, kk) => .init nn kk
    | .inr (.inl x) => .keyb x
    | .inr (.inr (.inl x)) => .absb x
    | .inr (.inr (.inr (.inl ()))) => .final
    | .inr (.inr (.inr (.inr (.inl idx)))) => .rdd idx
    | .inr (.inr (.inr (.inr (.inr ())))) => .stat
  left_inv := by rintro (_ | _) <;> rfl
  right_inv := by rintro (_ | _ | _ | _ | _ | _) <;> rfl

theorem card_instr : Nat.card Instr = 66306 := by
  have : Finite Byte := Nat.finite_of_card_ne_zero (by rw [card_byte]; decide)
  rw [Nat.card_congr instrEquivRows]
  simp only [Nat.card_sum, Nat.card_prod, Nat.card_unique, card_byte]

/-- Settles O4: each row has as many words as operands, and all rows together as many as there are commands. -/
theorem legalWordCount : Obligations.LegalWordCount :=
  ⟨card_words_init,
    (card_words fun _ _ => Instr.keyb.inj).trans card_byte,
    (card_words fun _ _ => Instr.absb.inj).trans card_byte,
    card_words_one .final,
    (card_words fun _ _ => Instr.rdd.inj).trans card_byte,
    card_words_one .stat,
    (card_words Function.injective_id).trans card_instr⟩

/-! ### The response to a command (R65, R70, R71) -/

/-- R71: there are five status codes. -/
theorem statusCode_le (st : Status) : (statusCode st).toNat ≤ 4 := by cases st <;> decide

/-- A command that succeeds appends one response, and only `RDD` and `STAT` put data into it. -/
theorem response_of_succeeds {i : Instr} {s t : State} (h : Succeeds i s t) :
    ∃ data, t.responses = s.responses ++ [rspWord .ok data] ∧ (data ≠ 0 → (∃ idx, i = .rdd idx) ∨ i = .stat) := by
  have noData {u : State} (hu : u.responses = s.responses) :
      ∃ data, (u.emit (rspWord .ok 0)).responses = s.responses ++ [rspWord .ok data] ∧
        (data ≠ 0 → (∃ idx, i = .rdd idx) ∨ i = .stat) :=
    ⟨0, by rw [emit_responses, hu], fun h => absurd rfl h⟩
  rcases h with ⟨nn, kk, -, -, -, rfl⟩ | ⟨x, -, -, -, -, rfl⟩ | ⟨x, -, -, -, -, rfl⟩ | ⟨x, -, -, -, -, rfl⟩ |
    ⟨x, -, -, -, rfl⟩ | ⟨-, -, -, rfl⟩ | ⟨idx, hj, hi, -, -, rfl⟩ | ⟨hi, rfl⟩
  · exact noData rfl
  · exact noData rfl
  · exact noData rfl
  · exact noData rfl
  · exact noData rfl
  · exact noData rfl
  · exact ⟨_, rfl, fun _ => .inl ⟨idx, hi⟩⟩
  · exact ⟨_, rfl, fun _ => .inr hi⟩

/-- A command word appends one response: a refusal without data, or the response of the command that succeeds. -/
theorem response_of_runCommand {w : Word} {s t : State} (h : runCommand w s = .next t) :
    ∃ st data, t.responses = s.responses ++ [rspWord st data] ∧ (st ≠ .ok → data = 0) ∧
      (data ≠ 0 → (∃ idx, decode w = .ok (.rdd idx)) ∨ decode w = .ok .stat) := by
  rcases runCommand_next_cases h with ⟨-, st, rfl⟩ | ⟨i, hd, hs⟩
  · exact ⟨st, 0, rfl, fun _ => rfl, fun h => absurd rfl h⟩
  · obtain ⟨data, hr, hdata⟩ := response_of_succeeds hs
    refine ⟨.ok, data, hr, fun h => absurd rfl h, fun h => ?_⟩
    rcases hdata h with ⟨idx, rfl⟩ | rfl
    · exact .inl ⟨idx, hd⟩
    · exact .inr hd

/-- Settles O39: the fields of the one response a command word appends. -/
theorem oneResponsePerCommand : Obligations.OneResponsePerCommand := by
  intro s t w h
  obtain ⟨st, data, hr, herr, hdata⟩ := response_of_runCommand h
  refine ⟨rspWord st data, hr, rspWord_middle st data, ?_, ?_, ?_⟩
  · rw [rspStatus_rspWord]
    exact statusCode_le st
  · rw [rspStatus_rspWord, rspWord_data, Ne, statusCode_eq_zero]
    exact herr
  · rw [rspWord_data]
    exact hdata

/-! ### The assembler (R72) -/

/-- The fields of a command word as the disjoint summands of R72. -/
theorem cmdWord_eq_or {a b : Nat} (op : Byte) (ha : a ≤ 255) (hb : b ≤ 255) :
    cmdWord op (BitVec.ofNat 8 b) (BitVec.ofNat 8 a) =
      cmdWord op 0 0 ||| (BitVec.ofNat 32 b <<< 8) ||| BitVec.ofNat 32 a := by
  have hshift : b <<< 8 < 2 ^ 32 := by rw [Nat.shiftLeft_eq]; omega
  apply BitVec.eq_of_toNat_eq
  simp only [cmdWord, BitVec.toNat_append, BitVec.toNat_or, BitVec.toNat_shiftLeft, BitVec.toNat_ofNat]
  rw [Nat.mod_eq_of_lt (show b < 2 ^ 8 by omega), Nat.mod_eq_of_lt (show a < 2 ^ 8 by omega),
    Nat.mod_eq_of_lt (show b < 2 ^ 32 by omega), Nat.mod_eq_of_lt (show a < 2 ^ 32 by omega), Nat.mod_eq_of_lt hshift]
  simp [Nat.shiftLeft_or_distrib]

theorem cmdWord_eq_or_operand {a : Nat} (op : Byte) (ha : a ≤ 255) :
    cmdWord op 0 (BitVec.ofNat 8 a) = cmdWord op 0 0 ||| BitVec.ofNat 32 a := by
  simpa using cmdWord_eq_or op ha (Nat.zero_le 255)

theorem operandFits_iff {n : Nat} : operandFits n = true ↔ n ≤ 255 := decide_eq_true_iff

/-- The assembler refuses a line exactly when it is not well formed; the word matters only when it is. -/
theorem assemble_eq_ite {l : AsmLine} {p : Prop} [Decidable p] {w : Word} (hp : l.wellFormed = true ↔ p)
    (hw : p → encode l.toInstr = w) : assemble l = if p then some w else none := by
  rw [assemble, if_congr hp rfl rfl]
  by_cases h : p
  · rw [if_pos h, if_pos h, hw h]
  · rw [if_neg h, if_neg h]

/-- Settles O6: well-formedness is the bound on the operands, and within it the fields are the summands of R72. -/
theorem assemblerWords : Obligations.AssemblerWords := by
  refine ⟨fun nn kk => assemble_eq_ite ?_ fun h => cmdWord_eq_or 0x01 h.1 h.2,
    fun x => assemble_eq_ite operandFits_iff (cmdWord_eq_or_operand 0x02),
    fun x => assemble_eq_ite operandFits_iff (cmdWord_eq_or_operand 0x03), rfl,
    fun idx => assemble_eq_ite operandFits_iff (cmdWord_eq_or_operand 0x05), rfl⟩
  rw [AsmLine.wellFormed, Bool.and_eq_true, operandFits_iff, operandFits_iff]

/-! ### Numbers in assembler text (R72) -/

theorem isDigit_of_mem_decimalText {n : Nat} {ch : Char} (h : ch ∈ decimalText n) : ch.isDigit = true :=
  Nat.isDigit_of_mem_toDigits (by decide) (by decide) h

/-- A decimal number holds no space, comma or semicolon: no character but digits. -/
@[simp] theorem notMem_decimalText {ch : Char} (h : ch.isDigit = false) (n : Nat) : ch ∉ decimalText n := fun hm =>
  Bool.false_ne_true (h.symm.trans (isDigit_of_mem_decimalText hm))

theorem decimalText_ne_nil (n : Nat) : decimalText n ≠ [] := Nat.toDigits_ne_nil

theorem decDigit_of_isDigit {ch : Char} (h : ch.isDigit = true) : decDigit ch = some (ch.toNat - 48) := by
  rw [Char.isDigit, Bool.and_eq_true, decide_eq_true_iff, decide_eq_true_iff] at h
  exact if_pos h

/-- On decimal digits the model's reader is the library's. -/
theorem digitsValue_digits {t : List Char} (h : ∀ ch ∈ t, ch.isDigit = true) (acc : Nat) :
    digitsValue 10 decDigit acc t = some (Nat.ofDigitChars 10 t acc) := by
  induction t generalizing acc with
  | nil => rfl
  | cons ch rest ih =>
    obtain ⟨hch, hrest⟩ := List.forall_mem_cons.mp h
    rw [digitsValue, decDigit_of_isDigit hch, Nat.ofDigitChars_cons]
    exact ih hrest _

/-- Digits are never read as a hexadecimal number, since `x` is no digit. -/
theorem parseNumber_digits {t : List Char} (hne : t ≠ []) (h : ∀ ch ∈ t, ch.isDigit = true) :
    parseNumber t = digitsValue 10 decDigit 0 t := by
  unfold parseNumber
  split
  · have hx := h 'x' (by simp)
    cases hx
  · rfl
  · contradiction

@[simp] theorem parseNumber_decimalText (n : Nat) : parseNumber (decimalText n) = some n := by
  have digits : ∀ ch ∈ decimalText n, ch.isDigit = true := fun _ => isDigit_of_mem_decimalText
  calc parseNumber (decimalText n) = digitsValue 10 decDigit 0 (decimalText n) :=
        parseNumber_digits (decimalText_ne_nil n) digits
    _ = some (Nat.ofDigitChars 10 (decimalText n) 0) := digitsValue_digits digits 0
    _ = some n := congrArg some Nat.ofDigitChars_ten_toDigits

/-! ### Operands in assembler text -/

/-- A text without a comma is one operand. -/
theorem splitOperands_last {t : List Char} (h : ',' ∉ t) (acc : List Char) :
    splitOperands acc t = [acc.reverse ++ t] := by
  induction t generalizing acc with
  | nil => simp [splitOperands]
  | cons ch rest ih =>
    rw [List.mem_cons, not_or] at h
    rw [splitOperands, ih h.2]
    · simp
    · exact fun _ e _ => h.1 e.symm

/-- An operand ends at the first comma and space. -/
theorem splitOperands_comma {t : List Char} (h : ',' ∉ t) (acc rest : List Char) :
    splitOperands acc (t ++ ',' :: ' ' :: rest) = (acc.reverse ++ t) :: splitOperands [] rest := by
  induction t generalizing acc with
  | nil => simp [splitOperands]
  | cons ch t ih =>
    rw [List.mem_cons, not_or] at h
    rw [List.cons_append, splitOperands, ih h.2]
    · simp
    · exact fun _ e _ => h.1 e.symm

/-! ### Comments in assembler text -/

section Comments
variable {code : List Char} (hsemi : ';' ∉ code) (hend : code.getLast? ≠ some ' ')

include hend in
theorem dropSpacesAtEnd_eq_self : (code.reverse.dropWhile (· = ' ')).reverse = code := by
  refine List.rdropWhile_eq_self_iff.mpr fun hne hsp => hend ?_
  rw [List.getLast?_eq_some_getLast hne, of_decide_eq_true hsp]

include hsemi in
theorem forall_mem_ne_semicolon : ∀ ch ∈ code, decide (ch ≠ ';') = true := fun _ hm =>
  decide_eq_true fun e => hsemi (e ▸ hm)

include hsemi hend

theorem stripComment_eq_self : stripComment code = code := by
  rw [stripComment, List.takeWhile_eq_self_iff.mpr (forall_mem_ne_semicolon hsemi), dropSpacesAtEnd_eq_self hend]

/-- A comment after a space goes, and the space with it. -/
theorem stripComment_comment (comment : List Char) : stripComment (code ++ ' ' :: ';' :: comment) = code := by
  have hcode : (code ++ ' ' :: ';' :: comment).takeWhile (· ≠ ';') = code ++ [' '] := by
    rw [List.takeWhile_append_of_pos (forall_mem_ne_semicolon hsemi)]
    rfl
  rw [stripComment, hcode, List.reverse_append]
  exact dropSpacesAtEnd_eq_self hend

end Comments

/-- A line means what it means without its comment. -/
theorem parseLine_congr {line line' : List Char} (h : stripComment line = stripComment line') :
    parseLine line = parseLine line' := by
  rw [parseLine, parseLine, h]

/-! ### The text of a line (R72) -/

theorem semicolon_notMem_lineText (l : AsmLine) : ';' ∉ lineText l := by
  cases l <;> simp [lineText]

theorem getLast?_append_decimalText (front : List Char) (n : Nat) :
    (front ++ decimalText n).getLast? ≠ some ' ' := by
  intro h
  rw [List.getLast?_append_of_ne_nil _ (decimalText_ne_nil n)] at h
  exact notMem_decimalText rfl n (List.mem_of_getLast? h)

theorem lineText_getLast? (l : AsmLine) : (lineText l).getLast? ≠ some ' ' := by
  cases l with
  | init nn kk => exact getLast?_append_decimalText _ kk
  | keyb x => exact getLast?_append_decimalText _ x
  | absb x => exact getLast?_append_decimalText _ x
  | final => decide
  | rdd idx => exact getLast?_append_decimalText _ idx
  | stat => decide

theorem stripComment_lineText (l : AsmLine) : stripComment (lineText l) = lineText l :=
  stripComment_eq_self (semicolon_notMem_lineText l) (lineText_getLast? l)

/-- The mnemonic ends at the first space, the operands at their commas, and each operand is a number read back. -/
theorem parseLine_lineText (l : AsmLine) : parseLine (lineText l) = some l := by
  rw [parseLine, stripComment_lineText]
  cases l with
  | init nn kk => simp [lineText, operandTexts, splitOperands_comma, splitOperands_last]
  | keyb x => simp [lineText, operandTexts, splitOperands_last]
  | absb x => simp [lineText, operandTexts, splitOperands_last]
  | final => rfl
  | rdd idx => simp [lineText, operandTexts, splitOperands_last]
  | stat => rfl

/-- Settles O7: the comment is stripped, and the text that is left reads back. -/
theorem lineTextReadsBack : Obligations.LineTextReadsBack := by
  intro l _
  refine ⟨parseLine_lineText l, fun comment => ?_⟩
  have stripped : stripComment (lineText l ++ ' ' :: ';' :: comment) = stripComment (lineText l) := by
    rw [stripComment_comment (semicolon_notMem_lineText l) (lineText_getLast? l), stripComment_lineText]
  rw [parseLine_congr stripped, parseLine_lineText]

end Sys2Proof.Machine
end

section
/-! PROOFS. The primitives of 40_arith_primitives.md: addition (R42), XOR and NOT (R43), the rotates (R44 to R48), and their
forms on pairs (R49, R50). -/

namespace Sys2Proof.Machine

/-! ### Addition, XOR and NOT -/

/-- Settles O15: the sum is that of `BitVec`, and the corner cases are evaluated. -/
theorem add64Wraps : Obligations.Add64Wraps :=
  ⟨BitVec.toNat_add, BitVec.add_comm, BitVec.add_assoc, BitVec.add_zero, by decide, by decide, by decide, by decide⟩

theorem getLsbD_xor64 (a b : Lane) (i : Nat) : (xor64 a b).getLsbD i = (a.getLsbD i ^^ b.getLsbD i) :=
  BitVec.getLsbD_xor

theorem getLsbD_not64 (a : Lane) {i : Nat} (hi : i < 64) : (not64 a).getLsbD i = !a.getLsbD i := by
  rw [not64, BitVec.getLsbD_not, decide_eq_true hi, Bool.true_and]

/-- R43: inverting a lane flips every bit. -/
theorem not64_eq_xor64 (a : Lane) : not64 a = xor64 a 0xFFFFFFFFFFFFFFFF :=
  (BitVec.xor_allOnes (x := a)).symm

/-- Settles O16: each bit of the result depends on the bits at its own position, and the laws are those of `BitVec`. -/
theorem xorNotBitwise : Obligations.XorNotBitwise :=
  ⟨fun a b i _ => getLsbD_xor64 a b i, fun a _ => getLsbD_not64 a, not64_eq_xor64, fun _ => BitVec.xor_self,
    fun _ => BitVec.xor_zero, fun _ => BitVec.not_not, by decide⟩

/-! ### The rotates -/

/-- Settles O17: a bit below the end comes from the right shift, one past it from the left shift (`getLsbD_rotr64`). -/
theorem rotateMovesBits : Obligations.RotateMovesBits := fun x _ _ _ hn hi => getLsbD_rotr64 x hn hi

/-- A rotate moves the low `n` bits above the `m` others; `cast` because `n + m` is 64 only by the hypothesis. -/
theorem rotr64_eq_append (x : Lane) {n m : Nat} (hm : 0 < m) (h : n + m = 64) :
    rotr64 x n = (x.extractLsb' 0 n ++ x.extractLsb' n m).cast h := by
  apply BitVec.eq_of_getLsbD_eq
  intro i hi
  rw [getLsbD_rotr64 x (by omega) hi, BitVec.getLsbD_cast, BitVec.getLsbD_append]
  by_cases hlow : i < m
  · rw [if_pos hlow, BitVec.getLsbD_extractLsb', decide_eq_true hlow, Bool.true_and, Nat.mod_eq_of_lt (by omega),
      Nat.add_comm]
  · have hwrap : (i + n) % 64 = 0 + (i - m) := by omega
    rw [if_neg hlow, BitVec.getLsbD_extractLsb', decide_eq_true (by omega), Bool.true_and, hwrap]

/-- R45: exchanging the two halves of a lane twice gives the lane back. -/
theorem rotr64By32_rotr64By32 (x : Lane) : rotr64By32 (rotr64By32 x) = x :=
  calc rotr64By32 (rotr64By32 x)
    _ = rotr64By32 (rotr64By32 (joinLane (splitLane x))) := by rw [joinLane_splitLane]
    _ = joinLane (pairRotr32 (pairRotr32 (splitLane x))) := by rw [joinLane_pairRotr32, joinLane_pairRotr32]
    _ = x := joinLane_splitLane x

/-- Settles O18: each rotate is `rotr64_eq_append` at its amount, and the examples are evaluated. -/
theorem fourRotates : Obligations.FourRotates := by
  refine ⟨fun x => ?by32, rotr64By32_rotr64By32, fun x => ?by24, fun x => ?by16, fun x => ?by63, ?examples⟩
  case by32 => exact rotr64_eq_append x (by decide) rfl
  case by24 => exact rotr64_eq_append x (by decide) rfl
  case by16 => exact rotr64_eq_append x (by decide) rfl
  case by63 => exact rotr64_eq_append x (by decide) rfl
  case examples => decide

/-! ### The pair forms -/

/-- Settles O19: each primitive on pairs joins to the primitive on lanes. -/
theorem pairArithmeticAgrees : Obligations.PairArithmeticAgrees :=
  ⟨joinLane_pairAdd, joinLane_pairXor, joinLane_pairNot, joinLane_pairRotr32, joinLane_pairRotr24, joinLane_pairRotr16,
    joinLane_pairRotr63⟩

end Sys2Proof.Machine
end

section
/-! PROOFS. The compression function (41_compression.md): the message words (R55), the working vector (R56), the mixing
function (R57), the feed-forward (R60), the constants (R52 to R54), and the order within a group (R62). -/

namespace Sys2Proof.Machine

/-! ### Message words -/

/-- A byte put below the lowest one: each byte above counts 256 times as much (R11, R32). -/
theorem toNat_append_byte {n : Nat} (hi : BitVec n) (lo : Byte) : (hi ++ lo).toNat = hi.toNat * 2 ^ 8 + lo.toNat := by
  rw [BitVec.toNat_append, ← Nat.shiftLeft_add_eq_or_of_lt lo.isLt, Nat.shiftLeft_eq]

/-- R33: `MemRead(addr, 8)` as a number. -/
theorem memRead8_toNat (b : List Host.Cell) (addr : Nat) :
    (memRead8 b addr).toNat = ∑ j : Fin 8, (Memory.read b (addr + j.val)).toNat * 2 ^ (8 * j.val) := by
  rw [Fin.sum_univ_eq_sum_range fun j => (Memory.read b (addr + j)).toNat * 2 ^ (8 * j)]
  simp only [memRead8, toNat_append_byte, Finset.sum_range_succ, Finset.sum_range_zero, Nat.add_zero]
  omega

theorem loadM_lane (b : List Host.Cell) (i : Fin 16) : (loadM b)[i] = memRead8 b (8 * i.val) := Vector.getElem_ofFn _

/-- Settles O20: the word is `MemRead(8i, 8)`, and each byte of a read counts 256 times as much as the one below it. -/
theorem messageWordsLittleEndian : Obligations.MessageWordsLittleEndian := by
  intro b i
  rw [loadM_lane, memRead8_toNat]

/-! ### The working vector and the feed-forward -/

theorem vCopy_low (h : Vector Lane 8) (i : Fin 8) : (vCopy h)[i.val] = h[i] := by
  rw [vCopy, Vector.getElem_ofFn, dif_pos i.isLt]
  rfl

theorem vCopy_high (h : Vector Lane 8) {i : Nat} (h8 : 8 ≤ i) (hi : i < 16) : (vCopy h)[i] = IV[i - 8] := by
  rw [vCopy, Vector.getElem_ofFn, dif_neg (Nat.not_lt.mpr h8)]

theorem vInit_other (h : Vector Lane 8) (t : Lane) (f : Bool) {i : Nat} (hi : i < 16) (h12 : i ≠ 12) (h14 : i ≠ 14) :
    (vInit h t f)[i] = (vCopy h)[i] := by
  cases f <;> simp [vInit, h12.symm, h14.symm]

theorem vInit_offset (h : Vector Lane 8) (t : Lane) (f : Bool) : (vInit h t f)[12] = (vCopy h)[12] ^^^ t := by
  cases f <;> simp [vInit, xor64]

theorem vInit_flag (h : Vector Lane 8) (t : Lane) (f : Bool) :
    (vInit h t f)[14] = if f then ~~~(vCopy h)[14] else (vCopy h)[14] := by
  cases f <;> simp [vInit, not64]

/-- Settles O21: lanes 12 and 14 are the two that `VINIT` changes after the copy of `h` and `IV`. -/
theorem vInitLanes : Obligations.VInitLanes := by
  intro h t f
  have iv : ∀ {i : Nat} (h8 : 8 ≤ i) (hi : i < 16), i ≠ 12 → i ≠ 14 → (vInit h t f)[i] = IV[i - 8] :=
    fun h8 hi h12 h14 => (vInit_other h t f hi h12 h14).trans (vCopy_high h h8 hi)
  refine ⟨fun i => ?low, fun i => iv (by omega) _ (by omega) (by omega), ?lane12, iv (by decide) _ (by decide) (by decide),
    ?lane14, iv (by decide) _ (by decide) (by decide)⟩
  case low => rw [vInit_other h t f _ (by omega) (by omega), vCopy_low]
  case lane12 =>
    rw [vInit_offset, vCopy_high h (by decide)]
    rfl
  case lane14 =>
    rw [vInit_flag, vCopy_high h (by decide)]
    rfl

/-- Settles O23: lane `i` of the feed-forward is its defining entry. -/
theorem feedForwardLanes : Obligations.FeedForwardLanes := fun _ _ _ => Vector.getElem_ofFn _

/-! ### The mixing function -/

/-- The four lanes of a quadruple (R54). -/
def Quad.lanes (q : Quad) : List (Fin 16) := [q.ia, q.ib, q.ic, q.id]

/-- The frame of `G` (R57). -/
theorem G_frame {q : Quad} {i : Fin 16} (hi : i ∉ q.lanes) (x y : Lane) (v : Vector Lane 16) : (G q x y v)[i] = v[i] := by
  have hne : q.ia ≠ i ∧ q.ib ≠ i ∧ q.ic ≠ i ∧ q.id ≠ i := by simpa [Quad.lanes, eq_comm] using hi
  obtain ⟨ha, hb, hc, hd⟩ := hne
  exact G_other ha hb hc hd x y v

/-- Four steps of `G` in a row: steps 1 to 4, and steps 5 to 8 with the other word and rotates (R57). -/
def halfG (q : Quad) (x : Lane) (rotD rotB : Lane → Lane) (v : Vector Lane 16) : Vector Lane 16 :=
  stepB q rotB (stepC q (stepD q rotD (stepA q x v)))

theorem G_eq_halves (q : Quad) (x y : Lane) (v : Vector Lane 16) :
    G q x y v = halfG q y rotr64By16 rotr64By63 (halfG q x rotr64By32 rotr64By24 v) := G_eq_steps q x y v

theorem halfG_lanes {q : Quad} (hq : q.lanes.Nodup) (x : Lane) (rotD rotB : Lane → Lane) (v : Vector Lane 16) :
    let a := v[q.ia] + v[q.ib] + x
    let d := rotD (v[q.id] ^^^ a)
    let c := v[q.ic] + d
    let w := halfG q x rotD rotB v
    w[q.ia] = a ∧ w[q.ib] = rotB (v[q.ib] ^^^ c) ∧ w[q.ic] = c ∧ w[q.id] = d := by
  have hne : q.ia ≠ q.ib ∧ q.ia ≠ q.ic ∧ q.ia ≠ q.id ∧ q.ib ≠ q.ic ∧ q.ib ≠ q.id ∧ q.ic ≠ q.id := by
    simpa [Quad.lanes, and_assoc] using hq
  obtain ⟨hab, hac, had, hbc, hbd, hcd⟩ := hne
  have ha : (stepA q x v)[q.ia] = v[q.ia] + v[q.ib] + x := stepA_self q x v
  have hd : (stepD q rotD (stepA q x v))[q.id] = rotD (v[q.id] ^^^ (v[q.ia] + v[q.ib] + x)) := by
    rw [stepD_self, stepA_ne q x v had, ha, xor64]
  have hc : (stepC q (stepD q rotD (stepA q x v)))[q.ic] = v[q.ic] + rotD (v[q.id] ^^^ (v[q.ia] + v[q.ib] + x)) := by
    rw [stepC_self, hd, stepD_ne q rotD _ hcd.symm, stepA_ne q x v hac, add64]
  refine ⟨?_, ?_, ?_, ?_⟩
  · rw [halfG, stepB_ne q rotB _ hab.symm, stepC_ne q _ hac.symm, stepD_ne q rotD _ had.symm, ha]
  · rw [halfG, stepB_self, hc, stepC_ne q _ hbc.symm, stepD_ne q rotD _ hbd.symm, stepA_ne q x v hab, xor64]
  · rw [halfG, stepB_ne q rotB _ hbc, hc]
  · rw [halfG, stepB_ne q rotB _ hbd, stepC_ne q _ hcd, hd]

/-- Settles O22: each half of `G` writes the four lanes from those it found, and `G_frame` is the rest. -/
theorem mixingFunctionLanes : Obligations.MixingFunctionLanes := by
  intro q x y v hq
  obtain ⟨ha1, hb1, hc1, hd1⟩ := halfG_lanes hq x rotr64By32 rotr64By24 v
  obtain ⟨ha2, hb2, hc2, hd2⟩ := halfG_lanes hq y rotr64By16 rotr64By63 (halfG q x rotr64By32 rotr64By24 v)
  simp (disch := decide) only [← G_eq_halves, ha1, hb1, hc1, hd1, rotr64By32, rotr64By24, rotr64By16, rotr64By63,
    rotr64_eq_rotateRight] at ha2 hb2 hc2 hd2
  exact ⟨ha2, hb2, hc2, hd2, fun i hi => G_frame hi x y v⟩

/-! ### The constants -/

/-- R53, R62: every message word has a place in every row of `SIGMA`. -/
theorem sigma_surjective : ∀ r : Fin 12, ∀ k : Fin 16, ∃ j : Fin 16, sigma r j = k := by decide

/-- Settles O24: the tables are finite and evaluated; which words an invocation takes is its definition. -/
theorem scheduleTablesWellMade : Obligations.ScheduleTablesWellMade := by
  refine ⟨?iv, ?sigma, ?quad, fun _ _ _ _ => rfl, sigma_surjective, ?repeated, ?columns, ?diagonals, ?crossing⟩
  case iv => rfl
  case sigma => decide
  case quad => decide
  case repeated => decide
  case columns => decide
  case diagonals => decide
  case crossing => decide

/-! ### The order within a group -/

theorem lanes_ext {v w : Vector Lane 16} (h : ∀ i : Fin 16, v[i] = w[i]) : v = w := Vector.ext fun k hk => h ⟨k, hk⟩

/-- `G` writes its lanes from what it finds in them alone. -/
theorem G_congr {q : Quad} (hq : q.lanes.Nodup) (x y : Lane) {v w : Vector Lane 16} (h : ∀ i ∈ q.lanes, v[i] = w[i]) :
    ∀ i ∈ q.lanes, (G q x y v)[i] = (G q x y w)[i] := by
  obtain ⟨hav, hbv, hcv, hdv, -⟩ := mixingFunctionLanes q x y v hq
  obtain ⟨haw, hbw, hcw, hdw, -⟩ := mixingFunctionLanes q x y w hq
  simp only [Quad.lanes, List.forall_mem_cons, List.not_mem_nil, false_imp_iff, implies_true, and_true] at h ⊢
  obtain ⟨ha, hb, hc, hd⟩ := h
  rw [ha, hb, hc, hd] at hav hbv hcv hdv
  exact ⟨hav.trans haw.symm, hbv.trans hbw.symm, hcv.trans hcw.symm, hdv.trans hdw.symm⟩

/-- Two invocations of `G` on disjoint lanes may change places: neither sees or overwrites the other's lanes. -/
theorem G_comm {p q : Quad} (hp : p.lanes.Nodup) (hq : q.lanes.Nodup) (hpq : ∀ i ∈ p.lanes, i ∉ q.lanes)
    (x y x' y' : Lane) (v : Vector Lane 16) : G q x' y' (G p x y v) = G p x y (G q x' y' v) := by
  refine lanes_ext fun i => ?_
  by_cases hip : i ∈ p.lanes
  · rw [G_frame (hpq i hip)]
    exact G_congr hp x y (fun j hj => (G_frame (hpq j hj) x' y' v).symm) i hip
  · rw [G_frame hip]
    by_cases hiq : i ∈ q.lanes
    · exact G_congr hq x' y' (fun j hj => G_frame (fun hjp => hpq j hjp hj) x y v) i hiq
    · rw [G_frame hiq, G_frame hiq, G_frame hip]

theorem quad_lanes_nodup : ∀ g : Fin 8, QUAD[g].lanes.Nodup := by decide

/-- R62: two columns, or two diagonals, share no lane. -/
theorem quad_lanes_disjoint :
    ∀ g g' : Fin 8, g.val / 4 = g'.val / 4 → g ≠ g' → ∀ i ∈ QUAD[g].lanes, i ∉ QUAD[g'].lanes := by decide

theorem invoke_comm (m : Vector Lane 16) (r : Fin 12) {g g' : Fin 8} (hg : g.val / 4 = g'.val / 4) (v : Vector Lane 16) :
    invoke m r (invoke m r v g) g' = invoke m r (invoke m r v g') g := by
  by_cases h : g = g'
  · rw [h]
  · exact G_comm (quad_lanes_nodup g) (quad_lanes_nodup g') (quad_lanes_disjoint g g' hg h) _ _ _ _ v

/-- Invocations of one group give the same result in every order. -/
theorem foldl_invoke_perm (m : Vector Lane 16) (r : Fin 12) (v : Vector Lane 16) {l order : List (Fin 8)}
    (hl : ∀ g ∈ l, ∀ g' ∈ l, g.val / 4 = g'.val / 4) (h : order.Perm l) :
    order.foldl (invoke m r) v = l.foldl (invoke m r) v :=
  h.foldl_eq' (fun g hg g' hg' z => invoke_comm m r (hl g (h.mem_iff.mp hg) g' (h.mem_iff.mp hg')) z) v

/-- Settles O26: the columns are one group and the diagonals the other. -/
theorem groupOrderIrrelevant : Obligations.GroupOrderIrrelevant := fun m r v _ =>
  ⟨foldl_invoke_perm m r v (by decide), foldl_invoke_perm m r v (by decide)⟩

end Sys2Proof.Machine
end

section
/-! PROOFS. The streaming buffer manager (42_stream_commands.md): the parameter word (R87) and what each of the six commands
does, case by case (R80 to R85, R89). -/

namespace Sys2Proof.Machine

/-! ### The parameter word (R87) -/

/-- The XOR of two words takes each field by itself. -/
theorem xor_fields (a b c d a' b' c' d' : Byte) :
    (a ++ b ++ c ++ d) ^^^ (a' ++ b' ++ c' ++ d') = (a ^^^ a') ++ (b ^^^ b') ++ (c ^^^ c') ++ (d ^^^ d') := by
  rw [BitVec.xor_append (x₁ := a ++ b ++ c), BitVec.xor_append (x₁ := a ++ b), BitVec.xor_append]

/-- R87: the two operands fill the two low bytes of `PARAM_BASE`, which are zero there. -/
theorem paramWord_eq_fields (nn kk : Byte) : paramWord nn kk = (0x01 : Byte) ++ (0x01 : Byte) ++ kk ++ nn := by
  have hbase : paramBase = (0x01 : Byte) ++ (0x01 : Byte) ++ (0 : Byte) ++ (0 : Byte) := rfl
  have hkk : kk.setWidth 32 <<< 8 = (0 : Byte) ++ (0 : Byte) ++ kk ++ (0 : Byte) := by
    apply BitVec.eq_of_toNat_eq
    have := kk.isLt
    simp only [BitVec.toNat_append, BitVec.toNat_shiftLeft, BitVec.toNat_setWidth]
    simp [Nat.shiftLeft_eq]
    omega
  have hnn : nn.setWidth 32 = (0 : Byte) ++ (0 : Byte) ++ (0 : Byte) ++ nn := by
    apply BitVec.eq_of_toNat_eq
    have := nn.isLt
    simp only [BitVec.toNat_append, BitVec.toNat_setWidth]
    simp
    omega
  rw [paramWord, hbase, hkk, hnn, xor_fields, xor_fields]
  simp

/-- R87: zero-extending the parameter word zero-extends its operands. -/
theorem paramWord_setWidth (nn kk : Byte) :
    (paramWord nn kk).setWidth 64 = (0x01010000 : Lane) ^^^ (kk.setWidth 64 <<< 8) ^^^ nn.setWidth 64 := by
  have hkk : (kk.setWidth 32 <<< 8).setWidth 64 = kk.setWidth 64 <<< 8 := by
    apply BitVec.eq_of_toNat_eq
    have := kk.isLt
    simp [Nat.shiftLeft_eq]
    omega
  have hnn : (nn.setWidth 32).setWidth 64 = nn.setWidth 64 := by
    apply BitVec.eq_of_toNat_eq
    simp
  rw [paramWord, BitVec.setWidth_xor, BitVec.setWidth_xor, hkk, hnn]
  rfl

theorem initialChain_lane_zero (nn kk : Byte) : (initialChain nn kk)[0] = IV[0] ^^^ (paramWord nn kk).setWidth 64 :=
  Vector.getElem_set_self _

theorem initialChain_lane_succ (nn kk : Byte) (i : Fin 7) : (initialChain nn kk)[i.val + 1] = IV[i.val + 1] :=
  Vector.getElem_set_ne _ _ (Nat.succ_ne_zero _).symm

/-- Settles O28: the parameter word is four fields side by side, and only lane 0 takes it. -/
theorem parameterWordFields : Obligations.ParameterWordFields := by
  refine ⟨fun nn kk => ?_, by decide, by decide, by decide⟩
  have hw := paramWord_eq_fields nn kk
  refine ⟨?_, ?_, ?_, ?_, initialChain_lane_zero nn kk, initialChain_lane_succ nn kk⟩
  · rw [hw]; exact fieldA_fields _ _ _ _
  · rw [hw]; exact fieldB_fields _ _ _ _
  · rw [hw]; exact fieldRsv_fields _ _ _ _
  · rw [hw]; exact fieldOp_fields _ _ _ _

/-! ### `INIT` (R80) -/

theorem initLegal_iff {nn kk : Byte} :
    outLenLegal nn = true ∧ keyLenLegal kk = true ↔ 1 ≤ nn.toNat ∧ nn.toNat ≤ 64 ∧ kk.toNat ≤ 64 :=
  (operandAllows_init nn kk State.reset).symm.trans decide_eq_true_iff

theorem execInit_legal {nn kk : Byte} (h : outLenLegal nn = true ∧ keyLenLegal kk = true) (s : State) :
    execInit nn kk s = .next ((freshContext s nn kk).emit (rspWord .ok 0)) := by
  rcases execInit_cases nn kk s with ⟨-, e⟩ | ⟨h', -⟩
  · exact e
  · exact absurd h h'

theorem execInit_refused {nn kk : Byte} (h : ¬(outLenLegal nn = true ∧ keyLenLegal kk = true)) (s : State) :
    execInit nn kk s = .next (s.emit (rspWord .eParam 0)) := by
  rcases execInit_cases nn kk s with ⟨h', -⟩ | ⟨-, e⟩
  · exact absurd h' h
  · exact e

/-- Settles O29: legal operands leave the fresh context, whose lane 0 takes the zero-extended parameter word and whose buffer
has nothing listed; other operands are refused. -/
theorem initCreatesContext : Obligations.InitCreatesContext := by
  intro s nn kk
  refine ⟨fun h => ?_, fun h => execInit_refused (mt initLegal_iff.mp h) s⟩
  refine ⟨_, execInit_legal (initLegal_iff.mpr h) s, ?_, initialChain_lane_succ nn kk, fun a => ?_, rfl, rfl, rfl, rfl, rfl,
    rfl, rfl⟩
  · rw [← paramWord_setWidth]
    exact initialChain_lane_zero nn kk
  · rw [emit_b, freshContext_b_nil]
    rfl

/-! ### `KEYB` (R81) -/

section Keyb
variable {s : State} (x : Byte)

theorem execKeyb_last (hp : s.phase = .keyload) (hc : s.c.toNat < blockBytes) (hk : s.c.toNat + 1 = s.kk.toNat) :
    execKeyb x s = .next (({ stored s x with c := 128, phase := .absorb } : State).emit (rspWord .ok 0)) := by
  have hk' : s.c + 1 = s.kk := BitVec.eq_of_toNat_eq ((fillCount_succ hc).trans hk)
  rcases execKeyb_cases x s with ⟨-, -, -, e⟩ | ⟨-, -, hne, -⟩ | ⟨-, hout, -⟩ | ⟨hne, -⟩
  · exact e
  · exact absurd hk' hne
  · exact absurd hc hout
  · exact absurd hp hne

theorem execKeyb_more (hp : s.phase = .keyload) (hc : s.c.toNat < blockBytes) (hk : s.c.toNat + 1 ≠ s.kk.toNat) :
    execKeyb x s = .next ((stored s x).emit (rspWord .ok 0)) := by
  rcases execKeyb_cases x s with ⟨-, -, heq, -⟩ | ⟨-, -, -, e⟩ | ⟨-, hout, -⟩ | ⟨hne, -⟩
  · exact absurd ((fillCount_succ hc).symm.trans (congrArg BitVec.toNat heq)) hk
  · exact e
  · exact absurd hc hout
  · exact absurd hp hne

theorem execKeyb_refused (hp : s.phase ≠ .keyload) : execKeyb x s = .next (s.emit (rspWord .eState 0)) := by
  rcases execKeyb_cases x s with ⟨h, -⟩ | ⟨h, -⟩ | ⟨h, -⟩ | ⟨-, e⟩
  · exact absurd h hp
  · exact absurd h hp
  · exact absurd h hp
  · exact e

end Keyb

/-- Settles O30: the store at the fill pointer, with the last key byte or without it. -/
theorem keybTakesKeyByte : Obligations.KeybTakesKeyByte := by
  intro s x
  refine ⟨fun hp hwf hc => ?_, execKeyb_refused x⟩
  have hread := Memory.read_write hwf s.c.toNat x
  by_cases hk : s.c.toNat + 1 = s.kk.toNat
  · exact ⟨_, execKeyb_last x hp hc hk, hread, fun _ => ⟨rfl, rfl⟩, fun h => absurd hk h, rfl, rfl, rfl, rfl, rfl, rfl, rfl,
      rfl, rfl, rfl, rfl⟩
  · exact ⟨_, execKeyb_more x hp hc hk, hread, fun h => absurd h hk, fun _ => ⟨fillCount_succ hc, hp⟩, rfl, rfl, rfl, rfl,
      rfl, rfl, rfl, rfl, rfl, rfl, rfl⟩

/-! ### `ABSB` (R82) -/

section Absb
variable {s : State} (x : Byte)

theorem execAbsb_room (hp : s.phase = .absorb) (hc : s.c.toNat < blockBytes) :
    execAbsb x s = .next ((stored s x).emit (rspWord .ok 0)) := by
  have h128 : s.c ≠ 128 := fun h => absurd (h ▸ hc) (by decide)
  rcases execAbsb_cases x s with ⟨-, h, -⟩ | ⟨-, h, -⟩ | ⟨-, -, -, e⟩ | ⟨-, -, hout, -⟩ | ⟨hne, -⟩
  · exact absurd h h128
  · exact absurd h h128
  · exact e
  · exact absurd hc hout
  · exact absurd hp hne

theorem execAbsb_commit (hp : s.phase = .absorb) (hc : s.c = 128) (hl : s.t.toNat + 128 ≤ tMax) :
    execAbsb x s = .next ((stored (committed s) x).emit (rspWord .ok 0)) := by
  rcases execAbsb_cases x s with ⟨-, -, -, e⟩ | ⟨-, -, h, -⟩ | ⟨-, h, -⟩ | ⟨-, h, -⟩ | ⟨hne, -⟩
  · exact e
  · exact absurd (decide_eq_true hl) h
  · exact absurd hc h
  · exact absurd hc h
  · exact absurd hp hne

theorem execAbsb_limit (hp : s.phase = .absorb) (hc : s.c = 128) (hl : ¬s.t.toNat + 128 ≤ tMax) :
    execAbsb x s = .next (s.emit (rspWord .eLength 0)) := by
  rcases execAbsb_cases x s with ⟨-, -, h, -⟩ | ⟨-, -, -, e⟩ | ⟨-, h, -⟩ | ⟨-, h, -⟩ | ⟨hne, -⟩
  · exact absurd (of_decide_eq_true h) hl
  · exact e
  · exact absurd hc h
  · exact absurd hc h
  · exact absurd hp hne

theorem execAbsb_refused (hp : s.phase ≠ .absorb) : execAbsb x s = .next (s.emit (rspWord .eState 0)) := by
  rcases execAbsb_cases x s with ⟨h, -⟩ | ⟨h, -⟩ | ⟨h, -⟩ | ⟨h, -⟩ | ⟨-, e⟩
  · exact absurd h hp
  · exact absurd h hp
  · exact absurd h hp
  · exact absurd h hp
  · exact e

end Absb

/-- The fill count as a number names the full buffer. -/
theorem fillCount_eq_full {c : Byte} (h : c.toNat = 128) : c = 128 := BitVec.eq_of_toNat_eq h

/-- Settles O31: the store with room; the commit of a full buffer and the store at address 0; the two refusals. -/
theorem absbTakesMessageByte : Obligations.AbsbTakesMessageByte := by
  intro s x
  refine ⟨fun hp hwf hc => ?_, fun hp hwf hc hl => ?_, fun hp hc hl => ?_, execAbsb_refused x⟩
  · exact ⟨_, execAbsb_room x hp hc, Memory.read_write hwf s.c.toNat x, fillCount_succ hc, rfl, rfl, rfl, rfl, rfl, hp, rfl,
      rfl, rfl, rfl, rfl, rfl⟩
  · exact ⟨_, execAbsb_commit x hp (fillCount_eq_full hc) hl, counter_add hl, committed_h s, Memory.read_write hwf 0 x, rfl,
      rfl, rfl, rfl, hp, rfl⟩
  · exact execAbsb_limit x hp (fillCount_eq_full hc) hl.not_ge

/-! ### `FINAL` (R83) -/

section Final
variable {s : State}

theorem execFinal_within (hp : s.phase = .absorb) (hl : s.t.toNat + s.c.toNat ≤ tMax) :
    execFinal s = .next ((closedContext s).emit (rspWord .ok 0)) := by
  rcases execFinal_cases s with ⟨-, -, e⟩ | ⟨-, h, -⟩ | ⟨hne, -⟩
  · exact e
  · exact absurd (decide_eq_true hl) h
  · exact absurd hp hne

theorem execFinal_limit (hp : s.phase = .absorb) (hl : ¬s.t.toNat + s.c.toNat ≤ tMax) :
    execFinal s = .next (s.emit (rspWord .eLength 0)) := by
  rcases execFinal_cases s with ⟨-, h, -⟩ | ⟨-, -, e⟩ | ⟨hne, -⟩
  · exact absurd (of_decide_eq_true h) hl
  · exact e
  · exact absurd hp hne

theorem execFinal_refused (hp : s.phase ≠ .absorb) : execFinal s = .next (s.emit (rspWord .eState 0)) := by
  rcases execFinal_cases s with ⟨h, -⟩ | ⟨h, -⟩ | ⟨-, e⟩
  · exact absurd h hp
  · exact absurd h hp
  · exact e

end Final

/-- Settles O32: within the limit the context is closed over the padded buffer; otherwise `FINAL` is refused. -/
theorem finalClosesContext : Obligations.FinalClosesContext := by
  intro s
  refine ⟨fun hp hl => ?_, fun hp hl => execFinal_limit hp hl.not_ge, execFinal_refused⟩
  exact ⟨_, execFinal_within hp hl, Memory.read_zeroFrom s.b s.c.toNat, counter_add hl, closedContext_h s, rfl, rfl, rfl,
    rfl, rfl, rfl⟩

/-! ### `RDD` and `STAT` (R84, R85) -/

section Rdd
variable {s : State} {idx : Byte}

theorem execRdd_read (hp : s.phase = .done) (hi : idx.toNat < s.nn.toNat) (hj : idx.toNat < 64) :
    execRdd idx s = .next (s.emit (rspWord .ok (byteData (digRead s.h ⟨idx.toNat, hj⟩)))) := by
  rcases execRdd_cases idx s with ⟨_, -, -, e⟩ | ⟨-, -, h, -⟩ | ⟨-, h, -⟩ | ⟨hne, -⟩
  · exact e
  · exact absurd hj h
  · exact absurd (decide_eq_true hi) h
  · exact absurd hp hne

theorem execRdd_above (hp : s.phase = .done) (hi : ¬idx.toNat < s.nn.toNat) :
    execRdd idx s = .next (s.emit (rspWord .eParam 0)) := by
  rcases execRdd_cases idx s with ⟨-, -, h, -⟩ | ⟨-, h, -⟩ | ⟨-, -, e⟩ | ⟨hne, -⟩
  · exact absurd (of_decide_eq_true h) hi
  · exact absurd (of_decide_eq_true h) hi
  · exact e
  · exact absurd hp hne

theorem execRdd_refused (hp : s.phase ≠ .done) : execRdd idx s = .next (s.emit (rspWord .eState 0)) := by
  rcases execRdd_cases idx s with ⟨-, h, -⟩ | ⟨h, -⟩ | ⟨h, -⟩ | ⟨-, e⟩
  · exact absurd h hp
  · exact absurd h hp
  · exact absurd h hp
  · exact e

end Rdd

/-- The response that carries a byte is that byte as a number (R84: zero-extended). -/
theorem rspWord_byteData_toNat (x : Byte) : (rspWord .ok (byteData x)).toNat = x.toNat := by
  rw [rspWord_ok_toNat, byteData, BitVec.toNat_setWidth_of_le (by decide)]

/-- Settles O33: the response to a legal index is the digest byte; an index from `nn` on, or another phase, is refused. -/
theorem rddReadsDigestByte : Obligations.RddReadsDigestByte := by
  intro s idx
  refine ⟨fun hp hi hj => ⟨_, execRdd_read hp hi hj, ?_⟩, fun hp hi => execRdd_above hp hi.not_gt, execRdd_refused⟩
  rw [rspWord_byteData_toNat, digRead_toNat]

/-- Settles O34: the response of `STAT` by its two fields, the phase code being the number of the phase. -/
theorem statReportsPhaseAndFill : Obligations.StatReportsPhaseAndFill := by
  intro s
  refine ⟨_, execStat_eq s, ?_⟩
  rw [rspWord_ok_toNat, statData_toNat]
  cases s.phase <;> rfl

/-! ### The transition table (R89) -/

/-- A command that succeeds moves to the phase of the table. -/
theorem phase_of_succeeds {i : Instr} {s t : State} (h : Succeeds i s t) : t.phase = phaseAfter i s := by
  rcases h with ⟨nn, kk, rfl, -, -, rfl⟩ | ⟨x, rfl, -, -, hk, rfl⟩ | ⟨x, rfl, hp, -, hk, rfl⟩ | ⟨x, rfl, hp, -, -, rfl⟩ |
    ⟨x, rfl, hp, -, rfl⟩ | ⟨rfl, -, -, rfl⟩ | ⟨idx, hj, rfl, hp, -, rfl⟩ | ⟨rfl, rfl⟩
  · by_cases hk : kk = 0
    · subst hk
      rfl
    · have hpos : 0 < kk.toNat := Nat.pos_of_ne_zero fun h => hk (BitVec.eq_of_toNat_eq h)
      exact (if_pos hpos).trans (if_neg hk).symm
  · exact (if_pos hk).symm
  · exact hp.trans (if_neg hk).symm
  · exact hp
  · exact hp
  · rfl
  · exact hp
  · rfl

/-- Settles O40: a refusal keeps the phase, a success moves it by the table. -/
theorem phaseTransitionTable : Obligations.PhaseTransitionTable := by
  intro i s t h
  rcases exec_next_cases h with ⟨hst, rfl⟩ | ⟨hst, hs⟩
  · rw [if_neg hst]
    rfl
  · rw [if_pos hst]
    exact phase_of_succeeds hs

end Sys2Proof.Machine
end

section
/-! PROOFS. The stream end to end: the last key byte and `FINAL` on the input held (R81, R83, R88), any list of accepted
commands, and the stream of a whole message run by the engine's steps and by the host (R90, R96, R97, R128). -/

namespace Sys2Proof.Machine

/-! ### The key block (R81, R88) -/

/-- The key block reads as the key, zero-padded. -/
theorem getD_keyBlock (key : List Byte) (a : Nat) : (keyBlock key).getD a 0 = key.getD a 0 := by
  rw [keyBlock]
  split
  next h => rw [h]
  next h =>
    by_cases ha : a < key.length
    · exact List.getD_append _ _ _ _ ha
    · rw [List.getD_append_right _ _ _ _ (by omega), List.getD_eq_default _ _ (by omega : key.length ≤ a),
        List.getD_eq_getElem?_getD, List.getElem?_replicate]
      split <;> rfl

/-- R88: the buffer that holds the whole key, zero-padded, holds the first block of the input, not compressed yet. -/
theorem holdsInput_keyBlock {s : State} {key : List Byte} (hne : key ≠ []) (h64 : key.length ≤ 64) (hc : s.c = 128)
    (ht : s.t = 0) (hh : s.h = initialChain s.nn s.kk) (hb : ∀ a, Memory.read s.b a = key.getD a 0) :
    HoldsInput s (inputBytes key []) := by
  have hlen : (inputBytes key []).length = 128 := by rw [inputBytes_length _ _ h64, if_neg hne]; rfl
  have ht0 : s.t.toNat = 0 := congrArg BitVec.toNat ht
  have hc128 : s.c.toNat = 128 := congrArg BitVec.toNat hc
  rw [HoldsInput, hlen]
  refine ⟨ht0, by rw [ht0, hc128], hh, fun a _ => ?_⟩
  rw [hb, ht0, inputBytes, List.append_nil, Nat.zero_add, getD_keyBlock]

/-- R81: the bytes of the key taken so far, after one more. -/
theorem read_stored_key {s : State} {part : List Byte} (hwf : Memory.wf s.b = true) (hc : s.c.toNat = part.length)
    (hb : ∀ a, Memory.read s.b a = part.getD a 0) (x : Byte) (a : Nat) :
    Memory.read (stored s x).b a = (part ++ [x]).getD a 0 := by
  rw [stored_b, Memory.read_write hwf, hc, hb]
  by_cases h : a ≤ part.length
  · exact (getD_snoc_eq h).symm
  · rw [if_neg (by omega), List.getD_eq_default _ _ (by omega), List.getD_eq_default]
    rw [List.length_append, List.length_singleton]
    omega

/-- Settles O50: a key byte is stored behind the part held; the last one makes the buffer the key block. -/
theorem keyBytesAbsorbed : Obligations.KeyBytesAbsorbed := by
  intro s n part x h
  obtain ⟨hp, hwf, hnn, h1, h64, hkk, hpart, hc, ht, hh, hb⟩ := h
  have hroom : s.c.toNat < blockBytes := by rw [blockBytes]; omega
  have hkn : s.kk.toNat = n := by rw [hkk, BitVec.toNat_ofNat]; omega
  have hlen : (part ++ [x]).length = part.length + 1 := List.length_append
  have hwf' : Memory.wf (stored s x).b = true := Memory.write_wf hwf x hroom
  have hb' := read_stored_key hwf hc hb x
  by_cases hlast : part.length + 1 = n
  · have hkey : (part ++ [x]).length = n := hlen.trans hlast
    refine ⟨_, execKeyb_last x hp hroom (by omega), rfl, fun h => absurd hlast h.ne, fun _ => absorbed_iff.mpr
      ⟨rfl, hwf', hnn, hkey ▸ h64, hkey ▸ hkk, holdsInput_emit.mpr ?_⟩⟩
    exact holdsInput_keyBlock (List.append_ne_nil_of_right_ne_nil _ (List.cons_ne_nil _ _)) (hkey ▸ h64) rfl ht hh hb'
  · refine ⟨_, execKeyb_more x hp hroom (by omega), rfl, fun hmore => ?_, fun h => absurd h hlast⟩
    exact ⟨hp, hwf', hnn, h1, h64, hkk, hlen ▸ hmore, by rw [emit_c, stored_c, fillCount_succ hroom, hc, hlen], ht, hh, hb'⟩

/-! ### `FINAL` (R83, R128) -/

/-- R83: the buffer zeroed from the fill count on is the last block of the input, zero-padded. -/
theorem HoldsInput.loadM_padded {s : State} {data : List Byte} (h : HoldsInput s data) :
    loadM (Memory.zeroFrom s.b s.c.toNat) = blockWords (data.drop (blockBytes * blocksBeforeLast data.length)) := by
  obtain ⟨ht, hn, -, hb⟩ := h
  refine loadM_eq_blockWords fun a _ => ?_
  rw [Memory.read_zeroFrom, List.getD_eq_getElem?_getD, List.getElem?_drop, ← List.getD_eq_getElem?_getD, blockBytes, ← ht]
  split
  next ha => rw [List.getD_eq_default _ _ (by omega)]
  next ha => exact hb a (by omega)

/-- Settles O53: the one compression with the final flag takes the padded last block and the length of the input. -/
theorem finalComputesDigest : Obligations.FinalComputesDigest := by
  intro s key msg h hmax
  obtain ⟨hp, -, -, -, hkk, hin⟩ := absorbed_iff.mp h
  obtain ⟨-, hlen, hh, -⟩ := id hin
  have hl : s.t.toNat + s.c.toNat ≤ tMax := hlen ▸ hmax
  have hcount : (s.t + s.c.setWidth 64).toNat = (inputBytes key msg).length := (counter_add hl).trans hlen
  have hoff : s.t + s.c.setWidth 64 = BitVec.ofNat 64 (inputBytes key msg).length := by
    rw [← hcount, BitVec.ofNat_toNat, BitVec.setWidth_eq]
  refine ⟨_, execFinal_within hp hl, rfl, rfl, ?_, hcount⟩
  rw [emit_h, closedContext_h, F_eq_compress, hin.loadM_padded, hoff, hh, hkk]
  rfl


/-! ### A list of commands, each accepted (R96) -/

/-- From `s` every command of the list is accepted, whatever else the host has queued behind it, and the state after the last
one has `Q`. -/
def Accepts : List Instr → State → (State → Prop) → Prop
  | [], s, Q => Q s
  | i :: rest, s, Q => ∀ queue,
      commandStatus i { s with inputs := queue } = .ok ∧
        ∃ t, exec i { s with inputs := queue } = .next t ∧ Accepts rest t Q

/-- One list after another. -/
theorem Accepts.append {P Q : State → Prop} {is js : List Instr} {s : State} (h : Accepts is s P)
    (hjs : ∀ t, P t → Accepts js t Q) : Accepts (is ++ js) s Q := by
  induction is generalizing s with
  | nil => exact hjs s h
  | cons i rest ih =>
    intro queue
    obtain ⟨hst, t, e, hrest⟩ := h queue
    exact ⟨hst, t, e, ih hrest⟩

/-- No command reads or writes what the host has queued. -/
theorem inputs_of_exec {i : Instr} {s t : State} (e : exec i s = .next t) : t.inputs = s.inputs := by
  rcases exec_next_cases e with ⟨-, rfl⟩ | ⟨-, hs⟩
  · rfl
  rcases hs with ⟨_, _, -, -, -, rfl⟩ | ⟨_, -, -, -, -, rfl⟩ | ⟨_, -, -, -, -, rfl⟩ | ⟨_, -, -, -, -, rfl⟩ |
    ⟨_, -, -, -, rfl⟩ | ⟨-, -, -, rfl⟩ | ⟨_, _, -, -, -, rfl⟩ | ⟨-, rfl⟩
  all_goals rfl

/-- The engine's steps over commands that are all accepted. -/
theorem Accepts.run {Q : State → Prop} {is : List Instr} {s : State} (h : Accepts is s Q)
    (hin : s.inputs = is.map fun i => .command (encode i)) :
    ∃ t, Host.Core.run core is.length s = .next t ∧ t.inputs = [] ∧ Q t := by
  induction is generalizing s with
  | nil => exact ⟨s, core_run_zero s, hin, h⟩
  | cons i rest ih =>
    obtain ⟨-, s', e, hrest⟩ := h (rest.map fun i => .command (encode i))
    have hstep : step s = .next s' := (step_of_event hin).trans ((runCommand_of_decode (decode_encode i) _).trans e)
    rw [List.length_cons, core_run_succ_next _ hstep]
    exact ih hrest (inputs_of_exec e)

/-- The host takes the last response of the command's meaning. -/
theorem sendOne_of_exec {i : Instr} {s t : State} {past : List Word} {w : Word}
    (e : exec i { s with inputs := [] } = .next t) (hr : t.responses = past ++ [w]) : sendOne s i = some (t, w) := by
  rw [sendOne_eq, runCommand_of_decode (decode_encode i), e]
  simp only [hr, List.getLast?_concat, Option.map_some]

/-- A command that is accepted is answered `OK`. -/
theorem sendOne_of_accepted {i : Instr} {s t : State} (hst : commandStatus i { s with inputs := [] } = .ok)
    (e : exec i { s with inputs := [] } = .next t) : ∃ w, sendOne s i = some (t, w) ∧ rspStatus w = 0 := by
  rcases exec_next_cases e with ⟨hne, -⟩ | ⟨-, hs⟩
  · exact absurd hst hne
  · obtain ⟨data, hr, -⟩ := response_of_succeeds hs
    exact ⟨_, sendOne_of_exec e hr, rspStatus_rspWord .ok data⟩

/-- The host sends commands that are all accepted without stopping. -/
theorem Accepts.send {Q : State → Prop} {is : List Instr} {s : State} (h : Accepts is s Q) :
    (send s is).error = none ∧ Q (send s is).engine := by
  induction is generalizing s with
  | nil => exact ⟨rfl, h⟩
  | cons i rest ih =>
    obtain ⟨hst, s', e, hrest⟩ := h []
    obtain ⟨w, hs, hw⟩ := sendOne_of_accepted hst e
    rw [send_cons_ok rest hs hw]
    exact ih hrest

/-! ### The stream of a key and a message (R80 to R82) -/

/-- R26 (iv): what a context has absorbed does not depend on what the host has queued. -/
theorem absorbed_inputs {s : State} {queue : List HostEvent} {key msg : List Byte} :
    Absorbed { s with inputs := queue } key msg ↔ Absorbed s key msg := Iff.rfl

theorem keyLoading_inputs {s : State} {queue : List HostEvent} {n : Nat} {part : List Byte} :
    KeyLoading { s with inputs := queue } n part ↔ KeyLoading s n part := Iff.rfl

theorem commandStatus_keyb {s : State} (hp : s.phase = .keyload) (x : Byte) : commandStatus (.keyb x) s = .ok := by
  simp [commandStatus, phaseAllows, operandAllows, lengthAllows, hp]

/-- R81: the rest of the key, byte by byte. -/
theorem accepts_keyb {n : Nat} {nn : Byte} (xs : List Byte) {part : List Byte} {s : State} (h : KeyLoading s n part)
    (hnn : s.nn = nn) (hn : part.length + xs.length = n) :
    Accepts (xs.map .keyb) s fun t => t.nn = nn ∧ Absorbed t (part ++ xs) [] := by
  induction xs generalizing s part with
  | nil =>
    obtain ⟨-, -, -, -, -, -, hpart, -⟩ := h
    exact absurd hn hpart.ne
  | cons x xs ih =>
    intro queue
    obtain ⟨t, e, htn, hmore, hlast⟩ := keyBytesAbsorbed _ n part x (keyLoading_inputs (queue := queue).mpr h)
    refine ⟨commandStatus_keyb h.1 x, t, e, ?_⟩
    rw [List.length_cons] at hn
    rw [List.append_cons]
    cases xs with
    | nil => exact ⟨htn.trans hnn, by rw [List.append_nil]; exact hlast hn⟩
    | cons y ys =>
      have hpart : (part ++ [x]).length = part.length + 1 := List.length_append
      rw [List.length_cons] at hn
      exact ih (hmore (by omega)) (htn.trans hnn) (by rw [hpart, List.length_cons]; omega)

/-- R104: while input follows within the supported length, `ABSB` is accepted. -/
theorem Absorbed.commandStatus_absb {s : State} {key msg : List Byte} (h : Absorbed s key msg) (x : Byte)
    (hmax : (inputBytes key (msg ++ [x])).length ≤ tMax) : commandStatus (.absb x) s = .ok := by
  obtain ⟨hp, -, -, -, -, -, hlen, -, -⟩ := h
  rw [inputBytes_snoc, List.length_append, List.length_singleton, ← hlen, tMax] at hmax
  have hl : lengthAllows (.absb x) s = true := decide_eq_true (by omega)
  simp [commandStatus, phaseAllows, operandAllows, hp, hl]

/-- R82: the rest of the message, byte by byte, within the supported length. -/
theorem accepts_absb {key : List Byte} {nn : Byte} (xs : List Byte) {msg : List Byte} {s : State} (h : Absorbed s key msg)
    (hnn : s.nn = nn) (hmax : (inputBytes key (msg ++ xs)).length ≤ tMax) :
    Accepts (xs.map .absb) s fun t => t.nn = nn ∧ Absorbed t key (msg ++ xs) := by
  induction xs generalizing s msg with
  | nil => exact ⟨hnn, by rwa [List.append_nil]⟩
  | cons x xs ih =>
    intro queue
    rw [List.append_cons] at hmax ⊢
    have hx : (inputBytes key (msg ++ [x])).length ≤ (inputBytes key (msg ++ [x] ++ xs)).length := by simp [inputBytes]
    have hs := absorbed_inputs (queue := queue).mpr h
    obtain ⟨t, e, htn, ht⟩ := absbExtendsMessage _ key msg x hs (hx.trans hmax)
    exact ⟨hs.commandStatus_absb x (hx.trans hmax), t, e, ih ht (htn.trans hnn) hmax⟩

/-- R80, R81: `INITK`: a legal `INIT` and its key bytes. -/
theorem accepts_initk {nn : Byte} {key : List Byte} (hnn : outLenLegal nn = true) (h64 : key.length ≤ 64) (s : State) :
    Accepts (.init nn (BitVec.ofNat 8 key.length) :: key.map .keyb) s fun t => t.nn = nn ∧ Absorbed t key [] := by
  have hkk : (BitVec.ofNat 8 key.length).toNat = key.length := by rw [BitVec.toNat_ofNat]; omega
  intro queue
  obtain ⟨t, e, htn, hnokey, hkey⟩ := initStartsStream { s with inputs := queue } nn (BitVec.ofNat 8 key.length) hnn
    (hkk.trans_le h64)
  refine ⟨commandStatus_init hnn (decide_eq_true (hkk.trans_le h64)) _, t, e, ?_⟩
  rw [hkk] at hnokey hkey
  cases key with
  | nil => exact ⟨htn, hnokey rfl⟩
  | cons x xs => exact accepts_keyb (x :: xs) (hkey (Nat.succ_pos _)) htn (Nat.zero_add _)

/-- The commands of a whole stream before `FINAL` (R80 to R82): `INITK`, then `UPDATE` of the message (R96). -/
def streamCommands (nn : Byte) (key msg : List Byte) : List Instr :=
  .init nn (BitVec.ofNat 8 key.length) :: (key.map .keyb ++ msg.map .absb)

theorem streamCommands_length (nn : Byte) (key msg : List Byte) :
    (streamCommands nn key msg).length = 1 + key.length + msg.length := by
  rw [streamCommands, List.length_cons, List.length_append, List.length_map, List.length_map]
  omega

/-- R96, R97: the commands of `HASH` are those of the stream, then those of `DIGEST`. -/
theorem hashCommands_eq {key : List Byte} (hkey : key.length ≤ 255) (msg : List Byte) (nn : Byte) :
    hashCommands msg key nn = some (streamCommands nn key msg ++ digestCommands nn) := by
  rw [hashCommands, initkCommands, if_pos hkey]
  rfl

/-- The whole stream is accepted, within the supported length. -/
theorem accepts_stream {nn : Byte} {key msg : List Byte} (hnn : outLenLegal nn = true) (h64 : key.length ≤ 64)
    (hmax : (inputBytes key msg).length ≤ tMax) (s : State) :
    Accepts (streamCommands nn key msg) s fun t => t.nn = nn ∧ Absorbed t key msg :=
  (accepts_initk hnn h64 s).append fun _ ⟨htn, h⟩ => accepts_absb msg h htn hmax

/-- R90 (iv): the counter and the fill count of an unkeyed message that is not empty. -/
theorem Absorbed.counts_nokey {t : State} {msg : List Byte} (h : Absorbed t [] msg) (hmsg : 1 ≤ msg.length) :
    t.t.toNat = 128 * ((msg.length + 127) / 128 - 1) ∧ t.c.toNat = msg.length - t.t.toNat ∧
      1 ≤ t.c.toNat ∧ t.c.toNat ≤ 128 := by
  obtain ⟨-, -, -, -, -, ht, hlen, -, -⟩ := h
  rw [inputBytes_nokey] at ht hlen
  rw [blocksBeforeLast, blockBytes] at ht
  omega

/-- R90 (iv): the counter and the fill count after a key block and any message. -/
theorem Absorbed.counts_key {t : State} {key msg : List Byte} (h : Absorbed t key msg) (hkey : key ≠ []) :
    t.t.toNat = 128 * ((msg.length + 127) / 128) ∧ t.c.toNat = msg.length + 128 - t.t.toNat := by
  obtain ⟨-, -, -, h64, -, ht, hlen, -, -⟩ := h
  rw [inputBytes_length _ _ h64, if_neg hkey] at ht hlen
  rw [blocksBeforeLast, blockBytes] at ht
  omega

/-- Settles O52: the engine's steps over the stream leave the key and the message absorbed, which fixes both counts. -/
theorem countsAfterMessage : Obligations.CountsAfterMessage := by
  intro s nn key msg hnn h64 hmax
  obtain ⟨t, e, hin, -, h⟩ := (accepts_stream hnn h64 hmax _).run
    (s := { s with inputs := (streamCommands nn key msg).map fun i => .command (encode i) }) rfl
  rw [streamCommands_length] at e
  refine ⟨t, e, h.1, hin, ?_, h.counts_key⟩
  rintro rfl hmsg
  exact h.counts_nokey hmsg

end Sys2Proof.Machine
end

section
/-! PROOFS. The host (43_host_api.md): what `HASH` returns (R97, R128), how long it is (R92, R98), and `UPDATE` in pieces
(R96). -/

namespace Sys2Proof.Machine

/-! ### `DIGEST` and `HASH` (R97, R84, R128) -/

/-- R84, R35: `RDD` of a byte of the digest, by its index in the window. -/
theorem exec_rdd_window {s : State} (hp : s.phase = .done) {j : Fin 64} (hj : j.val < s.nn.toNat) :
    exec (.rdd (BitVec.ofNat 8 j.val)) s = .next (s.emit (rspWord .ok (byteData (digRead s.h j)))) := by
  have hidx : (BitVec.ofNat 8 j.val).toNat = j.val := by rw [BitVec.toNat_ofNat]; omega
  have hfin : (⟨(BitVec.ofNat 8 j.val).toNat, hidx.trans_lt j.isLt⟩ : Fin 64) = j := Fin.ext hidx
  have e := execRdd_read hp (hidx.trans_lt hj) (hidx.trans_lt j.isLt)
  rw [hfin] at e
  exact e

/-- The host's `RDD` brings back the digest byte and leaves the engine ready for the next. -/
theorem sendOne_rdd {s : State} (hp : s.phase = .done) {j : Fin 64} (hj : j.val < s.nn.toNat) :
    ∃ t, sendOne s (.rdd (BitVec.ofNat 8 j.val)) = some (t, rspWord .ok (byteData (digRead s.h j))) ∧
      t.phase = .done ∧ t.nn = s.nn ∧ t.h = s.h :=
  ⟨_, sendOne_of_exec (exec_rdd_window (s := { s with inputs := [] }) hp hj) rfl, hp, rfl, rfl⟩

/-- R84, R97: the `RDD`s of `DIGEST` in order: one response per index, each with its digest byte. -/
theorem send_rdds (js : List (Fin 64)) {s : State} (hp : s.phase = .done) (hjs : ∀ j ∈ js, j.val < s.nn.toNat) :
    (send s (js.map fun j => .rdd (BitVec.ofNat 8 j.val))).error = none ∧
      (send s (js.map fun j => .rdd (BitVec.ofNat 8 j.val))).engine.phase = .done ∧
      (send s (js.map fun j => .rdd (BitVec.ofNat 8 j.val))).replies.map rspByte = js.map (digRead s.h) := by
  induction js generalizing s with
  | nil => exact ⟨rfl, hp, rfl⟩
  | cons j js ih =>
    obtain ⟨hj, hjs⟩ := List.forall_mem_cons.mp hjs
    obtain ⟨t, hs, htp, htn, hth⟩ := sendOne_rdd hp hj
    obtain ⟨herr, hphase, hbytes⟩ := ih htp (htn ▸ hjs)
    rw [List.map_cons, send_cons_ok _ hs (rspStatus_rspWord .ok _)]
    refine ⟨herr, hphase, ?_⟩
    rw [List.map_cons, rspByte_byteData, hbytes, hth, List.map_cons]

theorem val_lt_of_mem_take_finRange {n k : Nat} {j : Fin n} (h : j ∈ (List.finRange n).take k) : j.val < k := by
  obtain ⟨i, hi, rfl⟩ := List.mem_take_iff_getElem.mp h
  rw [List.getElem_finRange]
  exact (lt_min_iff.mp hi).1

theorem digest_length {nn : Byte} (h : nn.toNat ≤ 64) (key msg : List Byte) : (digest nn key msg).length = nn.toNat := by
  rw [digest, List.length_map, List.length_take, List.length_finRange, Nat.min_eq_left h]

/-- The indices `DIGEST` reads, as indices of the digest window (R35, R97). -/
theorem digestCommands_eq {nn : Byte} (h : nn.toNat ≤ 64) :
    digestCommands nn = .final :: ((List.finRange 64).take nn.toNat).map fun j => .rdd (BitVec.ofNat 8 j.val) := by
  have hrange : List.range nn.toNat = ((List.finRange 64).take nn.toNat).map Fin.val := by
    rw [List.map_take, List.map_coe_finRange_eq_range, List.take_range, Nat.min_eq_left h]
  rw [digestCommands, hrange, List.map_map]
  rfl

/-- R83, R104: `FINAL` is accepted within the supported length. -/
theorem Absorbed.commandStatus_final {s : State} {key msg : List Byte} (h : Absorbed s key msg)
    (hmax : (inputBytes key msg).length ≤ tMax) : commandStatus .final s = .ok := by
  obtain ⟨hp, -, -, -, -, -, hlen, -, -⟩ := h
  rw [← hlen, tMax] at hmax
  have hl : lengthAllows .final s = true := decide_eq_true (by omega)
  simp [commandStatus, phaseAllows, operandAllows, hp, hl]

/-- R97: `DIGEST` after the stream: the last `nn` responses carry the digest. -/
theorem send_digestCommands {s : State} {nn : Byte} {key msg : List Byte} (hnn : nn.toNat ≤ 64) (hs : s.nn = nn)
    (h : Absorbed s key msg) (hmax : (inputBytes key msg).length ≤ tMax) :
    (send s (digestCommands nn)).error = none ∧ (send s (digestCommands nn)).engine.phase = .done ∧
      ∃ w replies, (send s (digestCommands nn)).replies = w :: replies ∧ replies.map rspByte = digest nn key msg := by
  have h' := absorbed_inputs (queue := []).mpr h
  obtain ⟨t, e, htp, htn, hth, -⟩ := finalComputesDigest _ key msg h' hmax
  obtain ⟨w, hsend, hw⟩ := sendOne_of_accepted (h'.commandStatus_final hmax) e
  have htn' : t.nn = nn := htn.trans hs
  obtain ⟨herr, hphase, hbytes⟩ := send_rdds ((List.finRange 64).take nn.toNat) htp fun j hj =>
    htn' ▸ val_lt_of_mem_take_finRange hj
  rw [digestCommands_eq hnn, send_cons_ok _ hsend hw]
  refine ⟨herr, hphase, w, _, rfl, ?_⟩
  rw [hbytes, hth, digest, ← hs]

/-- R97, R128: the engine and the bytes `HASH` leaves, for legal operands within the supported length. -/
theorem hostHash_eq_digest {nn : Byte} {key msg : List Byte} (hnn : outLenLegal nn = true) (h64 : key.length ≤ 64)
    (hmax : (inputBytes key msg).length ≤ tMax) (s : State) :
    ∃ t, hostHash s msg key nn = (t, .ok (digest nn key msg)) ∧ t.phase = .done := by
  have hle : nn.toNat ≤ 64 := (of_decide_eq_true hnn).2
  obtain ⟨hok, hn, habs⟩ := (accepts_stream hnn h64 hmax s).send
  obtain ⟨herr, hphase, w, replies, hr, hbytes⟩ := send_digestCommands hle hn habs hmax
  have hlen : replies.length = nn.toNat := by rw [← List.length_map (f := rspByte), hbytes, digest_length hle]
  refine ⟨_, ?_, hphase⟩
  rw [hostHash, hashCommands_eq (h64.trans (by decide))]
  simp only [send_append _ _ _ hok, herr, hr]
  rw [List.append_cons, List.drop_left' (by rw [List.length_append (bs := replies), hlen, Nat.add_sub_cancel]), hbytes]

/-- Settles O54: absent arguments are the empty key and 64 bytes (R97). -/
theorem hashReturnsDigest : Obligations.HashReturnsDigest :=
  ⟨fun s _ _ _ hnn h64 hmax => hostHash_eq_digest hnn h64 hmax s,
    fun s _ hmax => hostHash_eq_digest (key := []) (by decide) (Nat.zero_le _) hmax s⟩

/-! ### The length contract (R92, R98) -/

/-- A host that did not stop had its first command answered `OK`. -/
theorem sendOne_of_send {i : Instr} {rest : List Instr} {s : State} (h : (send s (i :: rest)).error = none) :
    ∃ s' w, sendOne s i = some (s', w) ∧ rspStatus w = 0 := by
  rw [send] at h
  split at h
  · cases h
  next s' w hs =>
    refine ⟨s', w, hs, ?_⟩
    by_contra hw
    rw [if_neg hw] at h
    cases h

/-- A host that did not stop has one response per command. -/
theorem send_replies_length {is : List Instr} {s : State} (h : (send s is).error = none) :
    (send s is).replies.length = is.length := by
  induction is generalizing s with
  | nil => rfl
  | cons i rest ih =>
    obtain ⟨s', w, hs, hw⟩ := sendOne_of_send h
    rw [send_cons_ok rest hs hw] at h ⊢
    rw [List.length_cons, List.length_cons, ih h]

/-- `HASH` sends at least one command per byte it returns. -/
theorem le_length_hashCommands {input key : List Byte} {nn : Byte} {commands : List Instr}
    (h : hashCommands input key nn = some commands) : nn.toNat ≤ commands.length := by
  rw [hashCommands, Option.map_eq_some_iff] at h
  obtain ⟨start, -, rfl⟩ := h
  rw [List.length_append, digestCommands, List.length_cons, List.length_map, List.length_range]
  omega

theorem hostHash_length {s t : State} {msg key : List Byte} {nn : Byte} {ds : List Byte}
    (h : hostHash s msg key nn = (t, .ok ds)) : ds.length = nn.toNat := by
  rw [hostHash] at h
  split at h
  · cases h
  next commands hc =>
    dsimp only at h
    split at h
    · cases h
    next herr =>
      cases h
      have hle := le_length_hashCommands hc
      rw [List.length_map, List.length_drop, send_replies_length herr]
      omega

theorem hexText_length (ds : List Byte) : (hexText ds).length = 2 * ds.length := by
  induction ds with
  | nil => rfl
  | cons d ds ih =>
    rw [hexText, List.flatMap_cons, ← hexText, List.length_append, ih, List.length_cons, List.length_cons, List.length_cons,
      List.length_nil]
    omega

theorem hexDigit_mem {n : Nat} (h : n < 16) : hexDigit n ∈ "0123456789abcdef".toList := by
  rw [hexDigit, List.getD_eq_getElem _ _ h]
  exact List.getElem_mem _

theorem mem_hexText {ds : List Byte} {ch : Char} (h : ch ∈ hexText ds) : ch ∈ "0123456789abcdef".toList := by
  obtain ⟨d, -, hd⟩ := List.mem_flatMap.mp h
  have := d.isLt
  rcases List.mem_pair.mp hd with rfl | rfl
  · exact hexDigit_mem (by omega)
  · exact hexDigit_mem (by omega)

/-- Whatever `HASH` with absent arguments returns has the requested length, 64 bytes by default (R97). -/
theorem hostHashDefault_length {s t : State} {input : HostInput} {key : Option HostInput} {nn : Option Byte}
    {ds : List Byte} (h : hostHashDefault s input key nn = (t, .ok ds)) : ds.length = (nn.getD 64).toNat := by
  rw [hostHashDefault] at h
  split at h
  · exact hostHash_length h
  · cases h
  · cases h

/-- Settles O55: one response per command, so one byte per index read, and two characters per byte. -/
theorem digestLengthContract : Obligations.DigestLengthContract := by
  refine ⟨fun _ _ _ _ _ _ => hostHash_length, fun s t input key nn text h => ?_⟩
  rw [hostHashHex] at h
  split at h
  next hds =>
    cases h
    rw [hexText_length, hostHashDefault_length hds]
    exact ⟨rfl, fun _ => mem_hexText⟩
  next => cases h

/-! ### `UPDATE` in pieces (R96, R90 (i)) -/

/-- Settles O56: the commands of the concatenation are those of the first part, then those of the second. -/
theorem updateChunking : Obligations.UpdateChunking := by
  intro s xs ys h
  rw [updateCommands, List.map_append, ← updateCommands, ← updateCommands, send_append s _ _ h]
  exact ⟨rfl, rfl⟩

end Sys2Proof.Machine
end

section
/-! PROOFS. What the host renders and reads (43_host_api.md): the hexadecimal text of the digest bytes (R98), and text or
other values as input bytes (R99, R105). -/

namespace Sys2Proof.Machine

/-! ### The hexadecimal rendering (R98) -/

theorem hexText_cons (d : Byte) (ds : List Byte) :
    hexText (d :: ds) = hexDigit (d.toNat / 16) :: hexDigit (d.toNat % 16) :: hexText ds := rfl

/-- R98: byte `j` is rendered at positions `2j` and `2j + 1`, the most significant nibble first. -/
theorem hexText_getElem? {ds : List Byte} {j : Nat} (hj : j < ds.length) :
    (hexText ds)[2 * j]? = some (hexDigit (ds[j].toNat / 16)) ∧
      (hexText ds)[2 * j + 1]? = some (hexDigit (ds[j].toNat % 16)) := by
  induction ds generalizing j with
  | nil => cases hj
  | cons d ds ih =>
    rw [hexText_cons]
    cases j with
    | zero => exact ⟨rfl, rfl⟩
    | succ j => exact ih (Nat.lt_of_succ_lt_succ hj)

/-- Settles O57: each byte puts two digits of the alphabet in front of the rendering of the rest. -/
theorem hexRendering : Obligations.HexRendering :=
  fun _ => ⟨hexText_length _, fun _ => mem_hexText, fun _ hj => hexText_getElem? hj⟩

/-! ### Text and other values as input (R99, R105) -/

theorem textBytes_of_le {text : List Char} (h : ∀ ch ∈ text, ch.toNat ≤ 0xFF) :
    textBytes text = .ok (text.map fun ch => BitVec.ofNat 8 ch.toNat) :=
  if_pos (List.all_eq_true.mpr fun ch hch => decide_eq_true (h ch hch))

theorem textBytes_of_gt {text : List Char} {ch : Char} (hch : ch ∈ text) (h : 0xFF < ch.toNat) :
    textBytes text = .error .invalidInput :=
  if_neg fun hall => h.not_ge (of_decide_eq_true (List.all_eq_true.mp hall ch hch))

/-- R99: up to U+00FF the byte of a character is its code point. -/
theorem map_toNat_charBytes {text : List Char} (h : ∀ ch ∈ text, ch.toNat ≤ 0xFF) :
    (text.map fun ch => BitVec.ofNat 8 ch.toNat).map BitVec.toNat = text.map Char.toNat := by
  rw [List.map_map]
  refine List.map_congr_left fun ch hch => ?_
  rw [Function.comp_apply, BitVec.toNat_ofNat, Nat.mod_eq_of_lt (Nat.lt_succ_of_le (h ch hch))]

/-- R99, R105: a refused input issues no command, whatever the key. -/
theorem hostHashDefault_refusedInput {input : HostInput} {e : HostError} (h : input.normalize = .error e) (s : State)
    (key : Option HostInput) (nn : Option Byte) : hostHashDefault s input key nn = (s, .error e) := by
  rw [hostHashDefault, h]

/-- R99, R105: a refused key issues no command, even when the input is good. -/
theorem hostHashDefault_refusedKey {input : HostInput} {key : Option HostInput} {bs : List Byte} {e : HostError}
    (hinput : input.normalize = .ok bs) (hkey : normalizeKey key = .error e) (s : State) (nn : Option Byte) :
    hostHashDefault s input key nn = (s, .error e) := by
  rw [hostHashDefault, hinput, hkey]

/-- Settles O58: code points up to 0xFF fit a byte, and normalisation comes before any command. -/
theorem textToBytes : Obligations.TextToBytes := by
  refine ⟨fun text => ⟨fun h => ⟨_, textBytes_of_le h, map_toNat_charBytes h⟩, ?_⟩, rfl, fun s x nn h => ⟨?_, ?_⟩⟩
  · rintro ⟨ch, hch, h⟩
    exact textBytes_of_gt hch h
  · exact hostHashDefault_refusedInput h s none nn
  · exact hostHashDefault_refusedKey (input := .bytes []) (key := some x) rfl h s nn

end Sys2Proof.Machine
end

section
/-! PROOFS. Refusals and whole-engine rules (60_exceptions.md): the status and the frame of a refused word (R100, R108), no
record of past responses (R110), independent engines (R112), the length limit (R104), and waiting for the host (R114). -/

namespace Sys2Proof.Machine

/-! ### Refused words (R100, R108) -/

/-- R100, R108: a word is refused with its status and changes nothing but the response, or has status `OK` and its command
succeeds. -/
theorem runCommand_status_cases {w : Word} {s t : State} (h : runCommand w s = .next t) :
    (wordStatus w s ≠ .ok ∧ t = s.emit (rspWord (wordStatus w s) 0)) ∨
      (wordStatus w s = .ok ∧ ∃ i, Succeeds i s t) := by
  rcases runCommand_cases w s with ⟨i, hd, e⟩ | ⟨why, hd, e⟩ <;> rw [e] at h <;> rw [wordStatus, hd]
  · exact (exec_next_cases h).imp id fun ⟨hst, hs⟩ => ⟨hst, i, hs⟩
  · exact .inl ⟨nofun, (Host.Outcome.next.inj h).symm⟩

/-- Settles O37: a refusal answers with the word's status, a success with `OK`, which is then the word's status. -/
theorem refusalPriority : Obligations.RefusalPriority := by
  intro s t w h
  rcases runCommand_status_cases h with ⟨-, rfl⟩ | ⟨hst, i, hs⟩
  · exact ⟨0, rfl⟩
  · obtain ⟨data, hr, -⟩ := response_of_succeeds hs
    rw [hst]
    exact ⟨data, hr⟩

/-- The bits of a response below its status, when it has no data. -/
theorem rspWord_noData (st : Status) : (rspWord st 0).extractLsb' 0 24 = 0 := by cases st <;> decide

/-- Settles O38: the response of a success has status `OK`, so another status comes from a refusal. -/
theorem refusedChangesNothing : Obligations.RefusedChangesNothing := by
  intro s t w r h hr hne
  rcases runCommand_status_cases h with ⟨-, rfl⟩ | ⟨-, i, hs⟩
  · obtain rfl : rspWord (wordStatus w s) 0 = r := List.singleton_inj.mp (List.append_cancel_left hr)
    exact ⟨rfl, rspWord_noData _⟩
  · obtain ⟨data, hok, -⟩ := response_of_succeeds hs
    obtain rfl : rspWord .ok data = r := List.singleton_inj.mp (List.append_cancel_left (hok.symm.trans hr))
    exact absurd (rspStatus_rspWord .ok data) hne

/-! ### Past responses (R106, R110) -/

/-- Two engines that differ at most in what they had answered before: the responses `old` to the one, `past` to the other. -/
def SameButPast (old past : List Word) (s t : State) : Prop :=
  ∃ new, s.responses = old ++ new ∧ t = { s with responses := past ++ new }

theorem sameButPast_kept (old past : List Word) : KeptByUpdates (SameButPast old past) := by
  constructor <;> rintro s t ⟨new, hs, rfl⟩
  case emit =>
    intro w
    refine ⟨new ++ [w], ?_, ?_⟩
    · rw [emit_responses, hs, List.append_assoc]
    · rw [← List.append_assoc]
      rfl
  case c | t | nn | kk | phase => rfl
  case fresh => exact fun _ _ => ⟨new, hs, rfl⟩
  case stored => exact fun _ => ⟨new, hs, rfl⟩
  case keyFilled | committed | closed => exact ⟨new, hs, rfl⟩

/-- A relation between two next states may be replaced by one that follows from it for those the outcomes can be. -/
theorem OutcomesAgree.imp {R Q : State → State → Prop} {o u : Host.Outcome State Fault Refusal} (h : OutcomesAgree R o u)
    (hq : ∀ a b, o = .next a → R a b → Q a b) : OutcomesAgree Q o u := by
  cases o <;> cases u
  case next.next a b => exact hq a b rfl h
  all_goals exact h

/-- Settles O45: no update of a command reads the past responses, and the new ones are the single response of the word. -/
theorem pastResponsesNeverRead : Obligations.PastResponsesNeverRead := by
  intro s w past
  have h : SameButPast s.responses past s { s with responses := past } := ⟨[], by simp, by simp⟩
  refine (runCommand_agree (sameButPast_kept s.responses past) h (fun _ => rfl) w).imp ?_
  rintro a b ha ⟨new, hnew, rfl⟩
  obtain ⟨st, data, hr, -⟩ := response_of_runCommand ha
  obtain rfl : new = [rspWord st data] := List.append_cancel_left (hnew.symm.trans hr)
  exact ⟨_, hr, rfl⟩

/-! ### Several engines (R112) -/

/-- Interleaved steps that answer a next list took a first step that did. -/
theorem runInstances_cons_eq_next {engines engines' : List State} {j : Nat} {rest : List Nat}
    (h : runInstances engines (j :: rest) = .next engines') :
    ∃ mid, stepInstance engines j = .next mid ∧ runInstances mid rest = .next engines' := by
  rw [runInstances] at h
  cases hj : stepInstance engines j with
  | next mid => exact ⟨mid, rfl, by rwa [hj] at h⟩
  | fault r => rw [hj] at h; cases h
  | refused r => rw [hj] at h; cases h

/-- Everything a step of engine `j` can do when it answers a next list: nothing, when there is no such engine, or put
the engine's own next state in its place. -/
theorem stepInstance_next_cases {engines mid : List State} {j : Nat} (h : stepInstance engines j = .next mid) :
    (engines[j]? = none ∧ mid = engines) ∨
      ∃ s s', engines[j]? = some s ∧ step s = .next s' ∧ mid = engines.set j s' := by
  rw [stepInstance] at h
  cases hj : engines[j]? with
  | none => exact .inl ⟨rfl, by rw [hj] at h; exact (Host.Outcome.next.inj h).symm⟩
  | some s =>
    rw [hj] at h
    dsimp only at h
    cases hs : step s with
    | next s' => exact .inr ⟨s, s', rfl, hs, by rw [hs] at h; exact (Host.Outcome.next.inj h).symm⟩
    | fault r => rw [hs] at h; cases h
    | refused r => rw [hs] at h; cases h

/-- The engine that steps takes its own step. -/
theorem stepInstance_self {engines mid : List State} {k : Nat} {s : State} (hk : engines[k]? = some s)
    (h : stepInstance engines k = .next mid) : ∃ s', step s = .next s' ∧ mid[k]? = some s' := by
  rcases stepInstance_next_cases h with ⟨hnone, -⟩ | ⟨_, s', hs, e, rfl⟩
  · cases hnone.symm.trans hk
  · cases hs.symm.trans hk
    exact ⟨s', e, List.getElem?_set_self (List.getElem?_eq_some_iff.mp hk).1⟩

/-- The other engines keep their state. -/
theorem stepInstance_other {engines mid : List State} {j k : Nat} (hjk : j ≠ k) (h : stepInstance engines j = .next mid) :
    mid[k]? = engines[k]? := by
  rcases stepInstance_next_cases h with ⟨-, rfl⟩ | ⟨_, s', -, -, rfl⟩
  · rfl
  · exact List.getElem?_set_ne hjk

/-- Settles O47, by induction on the schedule: each of its steps is the next step of engine `k`, or leaves engine `k`. -/
theorem instancesIndependent : Obligations.InstancesIndependent := by
  intro schedule
  induction schedule with
  | nil =>
    intro engines engines' k s hk h
    cases h
    exact ⟨s, hk, core_run_zero s⟩
  | cons j rest ih =>
    intro engines engines' k s hk h
    obtain ⟨mid, hj, hrest⟩ := runInstances_cons_eq_next h
    by_cases hjk : j = k
    · subst hjk
      obtain ⟨s', hs, hmid⟩ := stepInstance_self hk hj
      rw [List.count_cons_self, core_run_succ_next _ hs]
      exact ih mid engines' j s' hmid hrest
    · rw [List.count_cons_of_ne hjk]
      exact ih mid engines' k s ((stepInstance_other hjk hj).trans hk) hrest

/-! ### The length limit (R104) -/

/-- A context that is full at the limit accepts only `INIT` and `STAT`: `ABSB` and `FINAL` would both take `t` past the
limit, and `KEYB` and `RDD` belong to other phases. -/
theorem succeeds_at_limit {i : Instr} {s t : State} (h : Succeeds i s t) (hp : s.phase = .absorb) (hc : s.c.toNat = 128)
    (hl : ¬s.t.toNat + 128 ≤ tMax) :
    (∃ nn kk, i = .init nn kk ∧ outLenLegal nn = true ∧ keyLenLegal kk = true) ∨ ∃ r, t = s.emit r := by
  rcases h with ⟨nn, kk, hi, hn, hk, -⟩ | ⟨_, -, hp', -⟩ | ⟨_, -, hp', -⟩ | ⟨_, -, -, -, hl', -⟩ | ⟨_, -, -, hc', -⟩ |
    ⟨-, -, hl', -⟩ | ⟨_, _, -, hp', -⟩ | ⟨-, ht⟩
  · exact .inl ⟨nn, kk, hi, hn, hk⟩
  · cases hp.symm.trans hp'
  · cases hp.symm.trans hp'
  · exact absurd hl' hl
  · exact absurd hc hc'.ne
  · exact absurd (hc ▸ hl') hl
  · cases hp.symm.trans hp'
  · exact .inr ⟨_, ht⟩

/-- Settles O48: at the limit every word but a legal `INIT` only adds a response, refused or not. -/
theorem lengthLimitHoldsContext : Obligations.LengthLimitHoldsContext := by
  intro s t w hp hc hl hw h
  have hframe : ∃ r, t = s.emit r := by
    rcases runCommand_next_cases h with ⟨-, st, ht⟩ | ⟨i, hd, hs⟩
    · exact ⟨_, ht⟩
    · rcases succeeds_at_limit hs hp hc hl.not_ge with ⟨nn, kk, rfl, hn, hk⟩ | ht
      · exact absurd ⟨nn, kk, hd, hn, hk⟩ hw
      · exact ht
  obtain ⟨r, rfl⟩ := hframe
  exact ⟨rfl, rfl, rfl, hp⟩

/-! ### Waiting for the host (R114) -/

/-- Settles O9: there is no event to take. -/
theorem stepWaitsForHost : Obligations.StepWaitsForHost := by
  intro s hin
  rw [step, advance, nextEvent_nil s hin]

end Sys2Proof.Machine
end

section
/-! PROOFS. Reset and hazards (70_reset_and_hazards.md): the digest held in `DONE` (R127), and the ports cycle by
cycle: what a rising edge does in each situation, the command that completes (R120, R122), and the one that reset abandons
(R116, R117). -/

namespace Sys2Proof.Machine

/-! ### The digest in `DONE` (R127) -/

/-- In `DONE` only `INIT`, `RDD` and `STAT` succeed: the other commands belong to other phases. -/
theorem succeeds_in_done {i : Instr} {s t : State} (h : Succeeds i s t) (hp : s.phase = .done) :
    (∃ nn kk, i = .init nn kk ∧ outLenLegal nn = true ∧ keyLenLegal kk = true) ∨ ∃ r, t = s.emit r := by
  rcases h with ⟨nn, kk, hi, hn, hk, -⟩ | ⟨_, -, hp', -⟩ | ⟨_, -, hp', -⟩ | ⟨_, -, hp', -⟩ | ⟨_, -, hp', -⟩ |
    ⟨-, hp', -⟩ | ⟨_, _, -, -, -, ht⟩ | ⟨-, ht⟩
  · exact .inl ⟨nn, kk, hi, hn, hk⟩
  iterate 5
    · cases hp.symm.trans hp'
  · exact .inr ⟨_, ht⟩
  · exact .inr ⟨_, ht⟩

/-- In `DONE` a word that starts no context only adds a response, refused or not. -/
theorem runCommand_in_done {w : Word} {s t : State} (hp : s.phase = .done) (hw : ¬StartsContext w)
    (h : runCommand w s = .next t) : ∃ r, t = s.emit r := by
  rcases runCommand_next_cases h with ⟨-, st, ht⟩ | ⟨i, hd, hs⟩
  · exact ⟨_, ht⟩
  · rcases succeeds_in_done hs hp with ⟨nn, kk, rfl, hn, hk⟩ | ht
    · exact absurd ⟨nn, kk, hd, hn, hk⟩ hw
    · exact ht

/-- R127: a run over words that start no context keeps the digest and its length, and stays in `DONE`. -/
theorem run_in_done (words : List Word) {s t : State} (hp : s.phase = .done) (hin : s.inputs = words.map .command)
    (hw : ∀ w ∈ words, ¬StartsContext w) (h : Host.Core.run core words.length s = .next t) :
    t.h = s.h ∧ t.nn = s.nn ∧ t.phase = .done := by
  induction words generalizing s with
  | nil =>
    cases h
    exact ⟨rfl, rfl, hp⟩
  | cons w words ih =>
    obtain ⟨s', hs, hrest⟩ := core_run_succ_eq_next h
    rw [step_of_event hin] at hs
    obtain ⟨r, rfl⟩ := runCommand_in_done (s := { s with inputs := words.map .command }) hp
      (hw w List.mem_cons_self) hs
    exact ih (s := State.emit { s with inputs := words.map .command } r) hp rfl
      (fun x hx => hw x (List.mem_cons_of_mem _ hx)) hrest

/-- Settles O46: `RDD` depends on the digest, its length and the phase, which the run keeps. -/
theorem digestStable : Obligations.DigestStable := by
  intro words s t hp hin hw h
  obtain ⟨hh, hnn, htp⟩ := run_in_done words hp hin hw h
  refine ⟨hh, hnn, htp, fun idx hi hj => ⟨_, execRdd_read hp hi hj, ?_⟩⟩
  rw [← hh]
  exact execRdd_read htp (hnn ▸ hi) hj

/-! ### A rising edge at the port (R116, R120, R122) -/

section Edge
variable {i : PortIn}

/-- R116, R117: at reset the command in flight, if any, is abandoned. -/
theorem portClock_reset (p : PortState) (hr : i.rst = true) :
    portClock p i = .next { p with engine := resetEvent p.engine, busy := none } := if_pos hr

/-- R117: the engine accepts no word and gives no response in a reset cycle. -/
theorem portOut_reset (p : PortState) (hr : i.rst = true) : portOut p i = ⟨false, none⟩ := by
  obtain ⟨s, busy, a⟩ := p
  rcases busy with _ | ⟨w, _ | n⟩ <;> simp [portOut, hr]

/-- R120: an engine with no command in flight is ready. -/
theorem portOut_idle {p : PortState} (hb : p.busy = none) (hr : i.rst = false) : portOut p i = ⟨true, none⟩ := by
  simp [portOut, hb, hr]

/-- R120: a ready engine accepts the word it is offered. -/
theorem portClock_accept {p : PortState} (hb : p.busy = none) (w : Word) :
    portClock p ⟨false, true, w⟩ = .next ⟨p.engine, some (w, Config.extraCycles w p.accepted), p.accepted + 1⟩ := by
  simp [portClock, hb]

variable (s : State) (w : Word) (a : Nat)

/-- R122: before the response cycle of a command only the wait gets shorter. -/
theorem portClock_wait (n : Nat) (hr : i.rst = false) :
    portClock ⟨s, some (w, n + 1), a⟩ i = .next ⟨s, some (w, n), a⟩ := by
  simp [portClock, hr]

variable {s w} {t : State}

/-- R122: at the end of its response cycle the command has run. -/
theorem portClock_complete (h : runCommand w s = .next t) (hr : i.rst = false) :
    portClock ⟨s, some (w, 0), a⟩ i = .next ⟨t, none, a⟩ := by
  simp [portClock, hr, h]

/-- R120, R122: the response cycle carries the response of the command. -/
theorem portOut_complete (h : runCommand w s = .next t) (hr : i.rst = false) :
    portOut ⟨s, some (w, 0), a⟩ i = ⟨false, t.responses.getLast?⟩ := by
  simp [portOut, portResponse, hr, h]

end Edge

/-! ### A command at the port (R120, R122) -/

/-- One cycle, then the others. -/
theorem portRun_cons {p p' q : PortState} {i : PortIn} {rest : List PortIn} {outs : List PortOut}
    (h : portClock p i = .next p') (hrest : portRun p' rest = .next (q, outs)) :
    portRun p (i :: rest) = .next (q, portOut p i :: outs) := by
  simp only [portRun, h, hrest]

/-- R122: a command in flight, with as many cycles to wait as the host drives before the last one, completes in the last. -/
theorem portRun_in_flight {w : Word} {s t : State} (h : runCommand w s = .next t) (a : Nat) (noise : List PortIn)
    {last : PortIn} (hnoise : ∀ i ∈ noise, i.rst = false) (hlast : last.rst = false) :
    portRun ⟨s, some (w, noise.length), a⟩ (noise ++ [last]) =
      .next (⟨t, none, a⟩, List.replicate noise.length ⟨false, none⟩ ++ [⟨false, t.responses.getLast?⟩]) := by
  induction noise with
  | nil =>
    rw [← portOut_complete a h hlast]
    exact portRun_cons (portClock_complete a h hlast) rfl
  | cons i noise ih =>
    exact portRun_cons (portClock_wait s w a noise.length (hnoise i List.mem_cons_self))
      (ih fun j hj => hnoise j (List.mem_cons_of_mem _ hj))

/-- Settles O59: the word is accepted in the first cycle and is then in flight for its latency. -/
theorem portCompletesCommand : Obligations.PortCompletesCommand := by
  intro p w t noise last hb h hlen hnoise hlast
  have haccept := portClock_accept hb w
  rw [← hlen] at haccept
  rw [← portOut_idle (i := ⟨false, true, w⟩) hb rfl]
  exact portRun_cons haccept (portRun_in_flight h _ noise hnoise hlast)

/-! ### Reset at the port (R116, R117) -/

/-- Settles O60: reset leaves no command in flight, so the engine is ready in the next cycle. -/
theorem portResetAbandons : Obligations.PortResetAbandons := by
  intro p i next hr
  exact ⟨portOut_reset p hr, _, portClock_reset p hr, rfl, rfl, rfl, portOut_idle rfl⟩

end Sys2Proof.Machine
end
